-- ==== Sys2Proof/Word.lean ====
section
/-! DEFINITION. The words on the block's interface (00_scope.md R6, 10_state.md R23, R24). -/

namespace Sys2Proof

/-- The command word CMD of a request: 32 bits (10_state.md R23). -/
abbrev Command := BitVec 32

/-- The data operand A and the result RESULT: `DATA_W = 64` bits (00_scope.md R6, 10_state.md R23, R24). -/
abbrev Data := BitVec 64

/-- The STATUS word of a response: 32 bits (10_state.md R24). -/
abbrev StatusWord := BitVec 32

/-- One byte of a VInt on the wire (43_vint_codec.md R61). -/
abbrev Byte := BitVec 8

end Sys2Proof
end

