-- ==== Sys2Proof/Syntax.lean ====
section
/-! DEFINITION. The ten operations of the request interface, one constructor per row of the opcode table
(30_encoding.md R43, R44). The data operand A is not part of the instruction: every operation reads it from the request. -/

namespace Sys2Proof

/-- The four standard container widths (00_scope.md R8). -/
inductive ContainerWidth where
  | w8
  | w16
  | w32
  | w64
deriving DecidableEq, Repr

/-- The operations and the operands they take from CMD (30_encoding.md R44). `cw` is the container width; the other operands
are the unsigned numbers of the fields B and C (R48), whose bound 0..255 is `Instr.wellFormed`. -/
inductive Instr where
  /-- `Bits(container, highBit, lowBit)`, 41_bit_extractor.md R56. -/
  | bits (cw : ContainerWidth) (hi lo : Nat)
  /-- `CalculateWidth(headByte)`, 42_width_calculator.md R58. -/
  | calcw
  /-- `Decode(bytes)`; `len` is the number of valid bytes in A, 43_vint_codec.md R63. -/
  | decode (len : Nat)
  /-- `Encode(value, minWidth)`; `minWidth` is in bits, 43_vint_codec.md R66. -/
  | encode (minWidth : Nat)
  /-- `PadUnsigned(raw, width)`, 44_integer_padder.md R72. -/
  | padu (cw : ContainerWidth) (width : Nat)
  /-- `PadSigned(raw, width)`, 44_integer_padder.md R73. -/
  | pads (cw : ContainerWidth) (width : Nat)
  /-- `CompactWidthUnsigned(value)`, 45_integer_shrinker.md R78. -/
  | cwu (cw : ContainerWidth)
  /-- `CompactWidthSigned(value)`, 45_integer_shrinker.md R79. -/
  | cws (cw : ContainerWidth)
  /-- `ShrinkUnsigned(value, width)`, 45_integer_shrinker.md R80. -/
  | shru (cw : ContainerWidth) (width : Nat)
  /-- `ShrinkSigned(value, width)`, 45_integer_shrinker.md R81. -/
  | shrs (cw : ContainerWidth) (width : Nat)
deriving DecidableEq, Repr

end Sys2Proof
end

