-- ==== Sys2Proof/WellFormed.lean ====
section
/-! DEFINITION. Which instructions can be written in a command word: every number that B or C carries is 0..255
("An assembler must reject a number outside 0..255, because it cannot be encoded", 30_encoding.md R54). -/

namespace Sys2Proof

/-- The number fits an 8-bit command field (30_encoding.md R42, R48). -/
def fitsField (k : Nat) : Bool := decide (k < 256)

/-- The instruction can be encoded (30_encoding.md R54). -/
def Instr.wellFormed : Instr → Bool
  | .bits _ hi lo => fitsField hi && fitsField lo
  | .calcw => true
  | .decode len => fitsField len
  | .encode minWidth => fitsField minWidth
  | .padu _ width => fitsField width
  | .pads _ width => fitsField width
  | .cwu _ => true
  | .cws _ => true
  | .shru _ width => fitsField width
  | .shrs _ width => fitsField width

end Sys2Proof
end

