-- ==== Sys2Proof/Decode.lean ====
section
/-! DEFINITION. The command word: its decoder, total and rejecting by name (30_encoding.md R42 to R45), the encoder, and the
opcode table as masks and patterns (R53). -/

namespace Sys2Proof

/-! ## The fields of CMD (30_encoding.md R42) -/

/-- `OP`, bits 31:28. -/
def Command.op (c : Command) : Nat := (c.extractLsb' 28 4).toNat

/-- `CW`, bits 27:26. -/
def Command.cw (c : Command) : Nat := (c.extractLsb' 26 2).toNat

/-- `RSV`, bits 25:16. -/
def Command.rsv (c : Command) : Nat := (c.extractLsb' 16 10).toNat

/-- `B`, bits 15:8, an unsigned number (30_encoding.md R48). -/
def Command.b (c : Command) : Nat := (c.extractLsb' 8 8).toNat

/-- `C`, bits 7:0, an unsigned number (30_encoding.md R48). -/
def Command.c (c : Command) : Nat := (c.extractLsb' 0 8).toNat

/-- The container width a CW field selects: 00 = 8, 01 = 16, 10 = 32, 11 = 64 (30_encoding.md R42, R47). -/
def ContainerWidth.ofSelect : Nat → ContainerWidth
  | 0 => .w8
  | 1 => .w16
  | 2 => .w32
  | _ => .w64

/-- The CW field of a container width (30_encoding.md R42, R47). -/
def ContainerWidth.select : ContainerWidth → Nat
  | .w8 => 0
  | .w16 => 1
  | .w32 => 2
  | .w64 => 3

/-! ## Decoding -/

/-- Why a command word is no request. Each is a condition of 30_encoding.md R45, and each gets the one response
ILLEGAL_REQUEST; the names are the model's (log 13). -/
inductive Rejection where
  /-- OP is 0x0 or in 0xB..0xF. -/
  | unassignedOp
  /-- RSV is not 0. -/
  | reservedNonzero
  /-- CW is unused for this OP and not 0. -/
  | unusedCw
  /-- B is unused for this OP and not 0. -/
  | unusedB
  /-- C is unused for this OP and not 0. -/
  | unusedC
deriving DecidableEq, Repr

/-- Goes on if the field is 0, and rejects by name if not (30_encoding.md R45). -/
def requireZero (field : Nat) (why : Rejection) (next : Except Rejection Instr) : Except Rejection Instr :=
  if field = 0 then next else .error why

/-- The instruction of a command word, or why there is none (30_encoding.md R43 to R45). -/
def decode (c : Command) : Except Rejection Instr :=
  let cw := ContainerWidth.ofSelect (Command.cw c)
  let noCw := requireZero (Command.cw c) .unusedCw
  let noB := requireZero (Command.b c) .unusedB
  let noC := requireZero (Command.c c) .unusedC
  requireZero (Command.rsv c) .reservedNonzero <|
    match Command.op c with
    | 1 => .ok (.bits cw (Command.b c) (Command.c c))
    | 2 => noCw (noB (noC (.ok .calcw)))
    | 3 => noCw (noC (.ok (.decode (Command.b c))))
    | 4 => noCw (noC (.ok (.encode (Command.b c))))
    | 5 => noC (.ok (.padu cw (Command.b c)))
    | 6 => noC (.ok (.pads cw (Command.b c)))
    | 7 => noB (noC (.ok (.cwu cw)))
    | 8 => noB (noC (.ok (.cws cw)))
    | 9 => noC (.ok (.shru cw (Command.b c)))
    | 10 => noC (.ok (.shrs cw (Command.b c)))
    | _ => .error .unassignedOp

/-! ## Encoding -/

/-- A command word from its fields; RSV is 0 (30_encoding.md R42). -/
def packCommand (op cw b c : Nat) : Command :=
  (BitVec.ofNat 4 op ++ BitVec.ofNat 2 cw ++ 0#10 ++ BitVec.ofNat 8 b ++ BitVec.ofNat 8 c).setWidth 32

/-- The command word of a well-formed instruction; unused fields are 0 (30_encoding.md R43, R44). -/
def encode : Instr → Command
  | .bits cw hi lo => packCommand 0x1 cw.select hi lo
  | .calcw => packCommand 0x2 0 0 0
  | .decode len => packCommand 0x3 0 len 0
  | .encode minWidth => packCommand 0x4 0 minWidth 0
  | .padu cw width => packCommand 0x5 cw.select width 0
  | .pads cw width => packCommand 0x6 cw.select width 0
  | .cwu cw => packCommand 0x7 cw.select 0 0
  | .cws cw => packCommand 0x8 cw.select 0 0
  | .shru cw width => packCommand 0x9 cw.select width 0
  | .shrs cw width => packCommand 0xA cw.select width 0

/-! ## The opcode table -/

/-- The mnemonic of an instruction (00_scope.md R2). -/
def Instr.mnemonic : Instr → String
  | .bits _ _ _ => "BITS"
  | .calcw => "CALCW"
  | .decode _ => "DECODE"
  | .encode _ => "ENCODE"
  | .padu _ _ => "PADU"
  | .pads _ _ => "PADS"
  | .cwu _ => "CWU"
  | .cws _ => "CWS"
  | .shru _ _ => "SHRU"
  | .shrs _ _ => "SHRS"

/-- One row of spec/opcode_table.json: the row selects a command word whose bits under `mask` are `pattern`. -/
structure OpcodeRow where
  mnemonic : String
  pattern : Command
  mask : Command
deriving DecidableEq, Repr

/-- The rows of spec/opcode_table.json ("match" and "mask"). -/
def opcodeTable : List OpcodeRow :=
  [ ⟨"BITS", 0x10000000#32, 0xF3FF0000#32⟩,
    ⟨"CALCW", 0x20000000#32, 0xFFFFFFFF#32⟩,
    ⟨"DECODE", 0x30000000#32, 0xFFFF00FF#32⟩,
    ⟨"ENCODE", 0x40000000#32, 0xFFFF00FF#32⟩,
    ⟨"PADU", 0x50000000#32, 0xF3FF00FF#32⟩,
    ⟨"PADS", 0x60000000#32, 0xF3FF00FF#32⟩,
    ⟨"CWU", 0x70000000#32, 0xF3FFFFFF#32⟩,
    ⟨"CWS", 0x80000000#32, 0xF3FFFFFF#32⟩,
    ⟨"SHRU", 0x90000000#32, 0xF3FF00FF#32⟩,
    ⟨"SHRS", 0xA0000000#32, 0xF3FF00FF#32⟩ ]

/-- The row selects the command word. -/
def rowSelects (c : Command) (row : OpcodeRow) : Bool := c &&& row.mask == row.pattern

/-- The mnemonics of the rows that select a command word. -/
def selectedMnemonics (c : Command) : List String :=
  (opcodeTable.filter (rowSelects c)).map OpcodeRow.mnemonic

/-! ## A request as one number

A request is 96 bits, 32 of CMD and 64 of A (30_encoding.md R52). The spec gives no order between the two. DESIGN CHOICE
(log 5): CMD is bits 31:0 and A is bits 95:32, so that a row's numbering of CMD's bits is the request's. -/

/-- CMD of the request whose bits are `w`, of which `nbits` are given and the others are 0. -/
def commandOfBits (nbits w : Nat) : Command := BitVec.ofNat 32 (w % 2 ^ nbits)

/-- A of the request whose bits are `w`, of which `nbits` are given and the others are 0. -/
def dataOfBits (nbits w : Nat) : Data := BitVec.ofNat 64 ((w % 2 ^ nbits) >>> 32)

/-- The instruction the decoder reads from a request whose bits are `w`. -/
def decodeTableWord (nbits w : Nat) : Option Instr :=
  match decode (commandOfBits nbits w) with
  | .ok i => some i
  | .error _ => none

end Sys2Proof
end

