-- ==== Sys2Proof/Machine/Arith.lean ====
section
/-! DEFINITION. The spec's notation as functions (00_scope.md §5): values are natural numbers or integers, exact, and are
narrowed to the 64-bit RESULT once, at the end. -/

namespace Sys2Proof.Machine

/-- `v[hi:lo]`: bits hi down to lo of v, moved down to bit 0 (00_scope.md R12). It has `hi - lo + 1` bits, for `lo ≤ hi`. -/
def slice (v hi lo : Nat) : Nat := (v >>> lo) % 2 ^ (hi - lo + 1)

/-- `bitlen(v)`: the number of binary digits of v, and 0 for 0 (00_scope.md R14). -/
def bitlen (v : Nat) : Nat := if v = 0 then 0 else v.log2 + 1

/-- `sint_n(p)`: the two's-complement reading of an n-bit pattern, `uint(p) - 2^n * p[n-1]` (00_scope.md R13). -/
def sint (n p : Nat) : Int := (p : Int) - if p.testBit (n - 1) then 2 ^ n else 0

/-- `bits_n(v)`: the n-bit pattern of `v mod 2^n`, the remainder being non-negative (00_scope.md R13). -/
def patternOf (n : Nat) (v : Int) : Nat := (v % 2 ^ n).toNat

end Sys2Proof.Machine
end

