-- ==== Sys2Proof/Machine/Operands.lean ====
section
/-! DEFINITION. How an operation reads its operands from the request (30_encoding.md R46, R47; 20_memory.md R35, R37). -/

namespace Sys2Proof.Machine

/-- The width of a container in bits: `cw = 8 << CW` (30_encoding.md R47). -/
def containerBits (cw : ContainerWidth) : Nat := 8 <<< cw.select

/-- `uint(A[cw-1:0])`, the container as an unsigned number (30_encoding.md R46). -/
def containerUint (cw : Nat) (a : Data) : Nat := slice a.toNat (cw - 1) 0

/-- `sint_cw(A[cw-1:0])`, the two's-complement value of the container (30_encoding.md R46). -/
def containerSint (cw : Nat) (a : Data) : Int := sint cw (containerUint cw a)

/-- `h = A[7:0]`, the head byte of CALCW (30_encoding.md R46). -/
def headByte (a : Data) : Nat := slice a.toNat 7 0

/-- `b[k] = A[63-8k : 56-8k]`, byte k of a packed byte sequence, for k = 0..7 (20_memory.md R35). -/
def packedByte (a : Data) (k : Nat) : Nat := slice a.toNat (63 - 8 * k) (56 - 8 * k)

end Sys2Proof.Machine
end

