-- ==== Sys2Proof/Config.lean ====
section
/-! DEFINITION. What is fixed for the life of the block (00_scope.md §4).
PIPE_LATENCY (R10) is OPEN: it is an argument of the clocked realisation (Machine/Clocked.lean) and appears nowhere else. -/

namespace Sys2Proof

/-- `MAX_VINT_BYTES`: a VInt occupies 1 to 8 bytes (00_scope.md R7). -/
def maxVIntBytes : Nat := 8

/-- The configuration of the block: its one parameter, REF_COMPACT_WIDTH (00_scope.md R9, 10_state.md R28). -/
structure Config where
  /-- REF_COMPACT_WIDTH. `false` is 0, the true minimum width; `true` is 1, the reference's over-allocating width (R9). -/
  refCompactWidth : Bool
deriving DecidableEq, Repr

/-- The default, REF_COMPACT_WIDTH = 0 (00_scope.md R9, 70_reset_and_hazards.md R100). DESIGN CHOICE as a reset value (log 3). -/
def Config.default : Config where
  refCompactWidth := false

end Sys2Proof
end

