-- ==== Sys2Proof/Machine/State.lean ====
section
/-! DEFINITION. What the spec gives the block in place of architectural state (10_state.md): the request and response
bundles, the error causes, and the one configuration parameter. The block itself stores nothing (R20, R32); `State` holds
the two sides of its interface, so that a run (R29) is a sequence of steps. -/

namespace Sys2Proof.Machine

/-- The input bundle of one request (10_state.md R23). -/
structure Request where
  /-- CMD, the command word. -/
  cmd : Command
  /-- A, the data operand. -/
  a : Data
deriving DecidableEq, Repr

/-- The output bundle of one response (10_state.md R24). -/
structure Response where
  /-- RESULT, the primary result. -/
  result : Data
  /-- STATUS: ERR, UNK, N and W (10_state.md R25). -/
  status : StatusWord
deriving DecidableEq, Repr

/-- The error causes an operation can raise (60_exceptions.md R86). Code 7 is never produced, so it has no constructor. -/
inductive ErrorCause where
  /-- Out-of-range bit indices, widths or byte counts. -/
  | invalidArgument
  /-- An all-zero VInt head byte. -/
  | invalidEncoding
  /-- Fewer bytes available than the marker declares. -/
  | truncatedInput
  /-- No length class fits the value and the minimum width. -/
  | valueTooLarge
  /-- The requested width is smaller than the value's compact width. -/
  | doesNotFit
  /-- The command word is no request. -/
  | illegalRequest
deriving DecidableEq, Repr

/-- The state of a run: the configuration, the requests the host has presented and the block has not yet answered, and the
responses the block has given. -/
structure State where
  /-- The configuration parameter, fixed for the whole run (10_state.md R28). -/
  config : Config
  /-- The requests presented and not yet answered, oldest first (10_state.md R29; log 1). -/
  requests : List Request
  /-- The responses given, oldest first (10_state.md R29, 70_reset_and_hazards.md R106; log 1). No operation reads them (R30). -/
  responses : List Response
deriving DecidableEq, Repr

/-- Why a step stops. The spec's own errors are no faults: they are responses (60_exceptions.md R90). -/
inductive Fault where
  /-- Raised by every meaning, and by the step, when no request is presented: there is no response before a request, and
  reading one is not a step (10_state.md R33, 70_reset_and_hazards.md R101, 93_implementation_defined.md I8). Safe (log 2). -/
  | noRequest
deriving DecidableEq, Repr

/-- Why the model has no meaning for an instruction. -/
inductive Refusal where
  /-- Raised by an arm of exec whose instruction has no meaning yet; no arm does. Safe. -/
  | notModelled (mnemonic : String)
deriving DecidableEq, Repr

/-- Right after reset: nothing presented, nothing answered (10_state.md R33). REF_COMPACT_WIDTH is not reset; it stands at its
default, to be fixed before the first request (70_reset_and_hazards.md R100). DESIGN CHOICE (log 3). -/
def State.reset : State where
  config := Config.default
  requests := []
  responses := []

end Sys2Proof.Machine
end

