-- ==== Sys2Proof/Machine/Flags.lean ====
section
/-! DEFINITION. The STATUS word (10_state.md R25; 30_encoding.md R49): how a response packs it, and the fields a host reads. -/

namespace Sys2Proof.Machine

/-- The ERR code of an error cause (60_exceptions.md R86). -/
def ErrorCause.code : ErrorCause → Nat
  | .invalidArgument => 1
  | .invalidEncoding => 2
  | .truncatedInput => 3
  | .valueTooLarge => 4
  | .doesNotFit => 5
  | .illegalRequest => 6

/-- STATUS of a success: `zext_32({ W[7:0], N[3:0], U[0], 0b000 })` (30_encoding.md R49). -/
def successStatus (w n : Nat) (u : Bool) : StatusWord :=
  (BitVec.ofNat 8 w ++ BitVec.ofNat 4 n ++ BitVec.ofBool u ++ 0b000#3).zeroExtend 32

/-- STATUS of an error: `zext_32(E)` (30_encoding.md R49, 60_exceptions.md R89). -/
def errorStatus (e : ErrorCause) : StatusWord := (BitVec.ofNat 3 e.code).zeroExtend 32

/-- `ERR`, bits 2:0. -/
def Response.err (r : Response) : Nat := (r.status.extractLsb' 0 3).toNat

/-- `UNK`, bit 3. -/
def Response.unk (r : Response) : Bool := r.status.getLsbD 3

/-- `N`, bits 7:4. -/
def Response.n (r : Response) : Nat := (r.status.extractLsb' 4 4).toNat

/-- `W`, bits 15:8. -/
def Response.w (r : Response) : Nat := (r.status.extractLsb' 8 8).toNat

end Sys2Proof.Machine
end

