-- ==== Sys2Proof/Machine/Ops.lean ====
section
/-! DEFINITION. The operations every meaning shares: the two endings of an operation, and answering a request.

Taking an error is `Response.raise` inside `State.answer`: it saves nothing, changes no mode and transfers control nowhere; the
error is the response to its own request and nothing more (60_exceptions.md R90). There is no return from it: the next
request is handled as if no error had happened (R91). -/

namespace Sys2Proof.Machine

/-- `ok(res, W, N, U)`: the success response (00_scope.md R15, 30_encoding.md R49). -/
def Response.ok (res w n : Nat) (u : Bool) : Response where
  result := BitVec.ofNat 64 res
  status := successStatus w n u

/-- `raise E`: the error response, RESULT = 0 and STATUS = zext_32(E) (00_scope.md R15, 60_exceptions.md R89). -/
def Response.raise (e : ErrorCause) : Response where
  result := 0#64
  status := errorStatus e

/-- The host presents a request, behind those it has presented already (10_state.md R29). -/
def State.present (s : State) (r : Request) : State := { s with requests := s.requests ++ [r] }

/-- The block answers the oldest request presented: `op` is the operation, a function of REF_COMPACT_WIDTH and A. One
indivisible transaction, with no effect beyond its own response (20_memory.md R39). With no request there is no step (log 2). -/
def State.answer (s : State) (op : Bool → Data → Response) : Host.Outcome State Fault Refusal :=
  match s.requests with
  | [] => .fault .noRequest
  | r :: rest =>
    .next { s with requests := rest, responses := s.responses ++ [op s.config.refCompactWidth r.a] }

/-- The response to a command word that is no request (30_encoding.md R45); A is not read. -/
def answerIllegal (s : State) : Host.Outcome State Fault Refusal :=
  s.answer fun _ _ => Response.raise .illegalRequest

/-- The request the next step answers, if one is presented (10_state.md R22: each request carries its own operation). -/
def State.fetch (s : State) : Option Request := s.requests.head?

end Sys2Proof.Machine
end

