-- ==== Sys2Proof/Machine/BitExtractor.lean ====
section
/-! DEFINITION. BitExtractor: BITS (41_bit_extractor.md). -/

namespace Sys2Proof.Machine

/-- `BITS(A, cw, hi, lo)` (41_bit_extractor.md R56). -/
def bitsResponse (cw hi lo : Nat) (a : Data) : Response :=
  if lo ≤ hi ∧ hi < cw then
    Response.ok (slice (containerUint cw a) hi lo) (hi - lo + 1) 0 false
  else Response.raise .invalidArgument

/-- BITS (41_bit_extractor.md R56). -/
def execBits (cw : ContainerWidth) (hi lo : Nat) (s : State) : Host.Outcome State Fault Refusal :=
  s.answer fun _ a => bitsResponse (containerBits cw) hi lo a

end Sys2Proof.Machine
end

