-- ==== Sys2Proof/Machine/IntegerPadder.lean ====
section
/-! DEFINITION. IntegerPadder, the zero- and sign-extender: PADU and PADS (44_integer_padder.md). -/

namespace Sys2Proof.Machine

/-- `PADU(A, cw, w)` (44_integer_padder.md R72). -/
def paduResponse (cw w : Nat) (a : Data) : Response :=
  if w < 1 ∨ w > cw then Response.raise .invalidArgument
  else Response.ok (slice (containerUint cw a) (w - 1) 0) w 0 false

/-- PADU (44_integer_padder.md R72). -/
def execPadu (cw : ContainerWidth) (w : Nat) (s : State) : Host.Outcome State Fault Refusal :=
  s.answer fun _ a => paduResponse (containerBits cw) w a

/-- The value of a w-bit signed field: its magnitude, less `2^(w-1)` if the sign bit is set (44_integer_padder.md R73). At
width 1 the magnitude is an empty bit range, whose value is 0 (R74, 90_conflicts.md C5). -/
def signedFieldValue (w x : Nat) : Int :=
  let magnitude := if w = 1 then 0 else slice x (w - 2) 0
  if x.testBit (w - 1) then (magnitude : Int) - 2 ^ (w - 1) else magnitude

/-- `PADS(A, cw, w)` (44_integer_padder.md R73): the cw-bit image of the value, zero above cw. -/
def padsResponse (cw w : Nat) (a : Data) : Response :=
  if w < 1 ∨ w > cw then Response.raise .invalidArgument
  else Response.ok (patternOf cw (signedFieldValue w (containerUint cw a))) w 0 false

/-- PADS (44_integer_padder.md R73). -/
def execPads (cw : ContainerWidth) (w : Nat) (s : State) : Host.Outcome State Fault Refusal :=
  s.answer fun _ a => padsResponse (containerBits cw) w a

end Sys2Proof.Machine
end

