-- ==== Sys2Proof/Machine/IntegerShrinker.lean ====
section
/-! DEFINITION. IntegerShrinker, the minimal-width integer packer: CWU, CWS, SHRU and SHRS (45_integer_shrinker.md).
`ref` is REF_COMPACT_WIDTH. -/

namespace Sys2Proof.Machine

/-- `cwu(REF, v)`: the true minimum (45_integer_shrinker.md R76), or the reference's width (R82). -/
def compactUnsigned (ref : Bool) (v : Nat) : Nat :=
  if ref then bitlen v + 1 else max (bitlen v) 1

/-- `cws(REF, v)`: the true minimum (45_integer_shrinker.md R77, 90_conflicts.md C3), or the spec's reading of the reference's
width, `cwu(1, |v|) + 1` (R82; log 6). -/
def compactSigned (ref : Bool) (v : Int) : Nat :=
  if ref then compactUnsigned true v.natAbs + 1
  else if 0 ≤ v then bitlen v.toNat + 1
  else bitlen (-v - 1).toNat + 1

/-- `CWU(REF, A, cw)` (45_integer_shrinker.md R78). -/
def cwuResponse (ref : Bool) (cw : Nat) (a : Data) : Response :=
  let c := compactUnsigned ref (containerUint cw a)
  Response.ok c c 0 false

/-- CWU (45_integer_shrinker.md R78). -/
def execCwu (cw : ContainerWidth) (s : State) : Host.Outcome State Fault Refusal :=
  s.answer fun ref a => cwuResponse ref (containerBits cw) a

/-- `CWS(REF, A, cw)` (45_integer_shrinker.md R79). -/
def cwsResponse (ref : Bool) (cw : Nat) (a : Data) : Response :=
  let c := compactSigned ref (containerSint cw a)
  Response.ok c c 0 false

/-- CWS (45_integer_shrinker.md R79). -/
def execCws (cw : ContainerWidth) (s : State) : Host.Outcome State Fault Refusal :=
  s.answer fun ref a => cwsResponse ref (containerBits cw) a

/-- `SHRU(REF, A, cw, w)` (45_integer_shrinker.md R80); the width is not bounded by the container. -/
def shruResponse (ref : Bool) (cw w : Nat) (a : Data) : Response :=
  if w < 1 ∨ w > 64 then Response.raise .invalidArgument
  else
    let v := containerUint cw a
    let c := compactUnsigned ref v
    if c > w then Response.raise .doesNotFit
    else Response.ok v c 0 false

/-- SHRU (45_integer_shrinker.md R80). -/
def execShru (cw : ContainerWidth) (w : Nat) (s : State) : Host.Outcome State Fault Refusal :=
  s.answer fun ref a => shruResponse ref (containerBits cw) w a

/-- `raw` of SHRS: the value, or for a negative value its two's-complement magnitude with the sign bit set
(45_integer_shrinker.md R81). -/
def rawBits (w : Nat) (v : Int) : Nat :=
  if 0 ≤ v then v.toNat else (2 ^ (w - 1) + v).toNat ||| 2 ^ (w - 1)

/-- `SHRS(REF, A, cw, w)` (45_integer_shrinker.md R81); the width is not bounded by the container. -/
def shrsResponse (ref : Bool) (cw w : Nat) (a : Data) : Response :=
  if w < 1 ∨ w > 64 then Response.raise .invalidArgument
  else
    let v := containerSint cw a
    let c := compactSigned ref v
    if c > w then Response.raise .doesNotFit
    else Response.ok (patternOf w (rawBits w v)) c 0 false

/-- SHRS (45_integer_shrinker.md R81). -/
def execShrs (cw : ContainerWidth) (w : Nat) (s : State) : Host.Outcome State Fault Refusal :=
  s.answer fun ref a => shrsResponse ref (containerBits cw) w a

end Sys2Proof.Machine
end

