-- ==== Sys2Proof/Machine/WidthCalculator.lean ====
section
/-! DEFINITION. WidthCalculator, the marker-bit detector: CALCW (42_width_calculator.md). -/

namespace Sys2Proof.Machine

/-- `i`, the MSB-first index of the first set bit of a head byte that is not 0: 0..7 (42_width_calculator.md R58, 00_scope.md R11). -/
def markerIndex (h : Nat) : Nat := 8 - bitlen h

/-- `markerWidth = bytesConsumed = i + 1` (42_width_calculator.md R58). -/
def markerWidth (h : Nat) : Nat := markerIndex h + 1

/-- `CALCW(A)` (42_width_calculator.md R58). The head byte 0x01 gives 56, not 49 (90_conflicts.md C1). -/
def calcwResponse (a : Data) : Response :=
  let h := headByte a
  if h = 0 then Response.raise .invalidEncoding
  else
    let payloadBits := 7 * (markerIndex h + 1)
    Response.ok payloadBits payloadBits (markerWidth h) false

/-- CALCW (42_width_calculator.md R58). -/
def execCalcw (s : State) : Host.Outcome State Fault Refusal :=
  s.answer fun _ a => calcwResponse a

end Sys2Proof.Machine
end

