-- ==== Sys2Proof/Machine/VIntCodec.lean ====
section
/-! DEFINITION. VIntCodec: DECODE and ENCODE (43_vint_codec.md). -/

namespace Sys2Proof.Machine

/-- The value of the n-byte VInt at byte 0 of A: the head byte without its marker, then each later byte, big-endian
(43_vint_codec.md R63 steps 3 and 4). -/
def vintValue (n : Nat) (a : Data) : Nat :=
  (List.range' 1 (n - 1)).foldl (fun v k => (v <<< 8) ||| packedByte a k) (packedByte a 0 &&& (0xFF >>> n))

/-- The Unknown sentinel: the 8-byte class with all 56 payload bits 1 (43_vint_codec.md R67). -/
def isUnknown (n v : Nat) : Bool := decide (n = maxVIntBytes ∧ v = 2 ^ 56 - 1)

/-- `DECODE(A, len)` (43_vint_codec.md R63), its errors in the order of 60_exceptions.md R88. -/
def decodeResponse (len : Nat) (a : Data) : Response :=
  if len = 0 ∨ len > maxVIntBytes then Response.raise .invalidArgument
  else
    let h := packedByte a 0
    if h = 0 then Response.raise .invalidEncoding
    else
      let n := markerWidth h
      if len < n then Response.raise .truncatedInput
      else
        let v := vintValue n a
        Response.ok v (8 * n) n (isUnknown n v)

/-- DECODE (43_vint_codec.md R63). -/
def execDecode (len : Nat) (s : State) : Host.Outcome State Fault Refusal :=
  s.answer fun _ a => decodeResponse len a

/-- The smallest length class n in 1..8 with `v < 2^(7n)` and `8n ≥ minWidth`, if one fits (43_vint_codec.md R66). -/
def smallestClass (v minWidth : Nat) : Option Nat :=
  (List.range' 1 maxVIntBytes).find? fun n => decide (v < 2 ^ (7 * n)) && decide (8 * n ≥ minWidth)

/-- The encoding of v in class n, read as one 8n-bit big-endian number: `2^(7n) + v` (43_vint_codec.md R61). -/
def vintWord (n v : Nat) : Nat := 2 ^ (7 * n) + v

/-- `ENCODE(A, mw)` (43_vint_codec.md R66): VALUE_TOO_LARGE exactly when no class fits (90_conflicts.md C8). -/
def encodeResponse (minWidth : Nat) (a : Data) : Response :=
  let v := a.toNat
  match smallestClass v minWidth with
  | none => Response.raise .valueTooLarge
  | some n => Response.ok (vintWord n v <<< (64 - 8 * n)) (8 * n) n false

/-- ENCODE (43_vint_codec.md R66). -/
def execEncode (minWidth : Nat) (s : State) : Host.Outcome State Fault Refusal :=
  s.answer fun _ a => encodeResponse minWidth a

end Sys2Proof.Machine
end

