-- ==== Sys2Proof/Machine/Dispatch.lean ====
section
/-! DEFINITION. One arm per operation (30_encoding.md R43, R51). -/

namespace Sys2Proof.Machine

def exec (i : Instr) (s : State) : Host.Outcome State Fault Refusal :=
  match i with
  | .bits cw hi lo => Sys2Proof.Machine.execBits cw hi lo s
  | .calcw => Sys2Proof.Machine.execCalcw s
  | .decode len => Sys2Proof.Machine.execDecode len s
  | .encode minWidth => Sys2Proof.Machine.execEncode minWidth s
  | .padu cw width => Sys2Proof.Machine.execPadu cw width s
  | .pads cw width => Sys2Proof.Machine.execPads cw width s
  | .cwu cw => Sys2Proof.Machine.execCwu cw s
  | .cws cw => Sys2Proof.Machine.execCws cw s
  | .shru cw width => Sys2Proof.Machine.execShru cw width s
  | .shrs cw width => Sys2Proof.Machine.execShrs cw width s

end Sys2Proof.Machine
end

