-- ==== Sys2Proof/Machine/Step.lean ====
section
/-! DEFINITION. One step: the block answers the oldest request presented (10_state.md R29). -/

namespace Sys2Proof.Machine

/-- Decode the command word and run its operation; a command word that is no request gets ILLEGAL_REQUEST, before any
operation-specific check (30_encoding.md R45, R51); with no request there is no step (70_reset_and_hazards.md R101; log 2). -/
def step (s : State) : Host.Outcome State Fault Refusal :=
  match s.fetch with
  | none => .fault .noRequest
  | some r =>
    match decode r.cmd with
    | .ok i => exec i s
    | .error _ => answerIllegal s

/-- The host presents the request whose bits are `w` ahead of those presented already, so that the next step answers it: CMD is
bits 31:0, A is bits 95:32, and every bit above `nbits` is 0 (log 5). -/
def State.withFetchWord (s : State) (nbits w : Nat) : State :=
  { s with requests := { cmd := commandOfBits nbits w, a := dataOfBits nbits w } :: s.requests }

end Sys2Proof.Machine
end

