-- ==== Sys2Proof/Machine/Assembly.lean ====
section
/-! DEFINITION. The spec's assembly syntax, one line per request, and its one pseudo-instruction (30_encoding.md R54, R55).
Characters the spec does not fix (spaces and tabs between the parts, the case of hex digits) are read as log 9 says. -/

namespace Sys2Proof.Machine

/-- A line in its parts: mnemonic, `.<cw>` suffix, the literal for A, and the numbers after it. -/
structure AsmLine where
  mnemonic : List Char
  suffix : Option Nat
  a : Int
  numbers : List Nat
deriving DecidableEq, Repr

/-- `<cw>` is one of 8, 16, 32 or 64 (30_encoding.md R54). -/
def asmContainer : Nat → Option ContainerWidth
  | 8 => some .w8
  | 16 => some .w16
  | 32 => some .w32
  | 64 => some .w64
  | _ => none

/-- The operations written `<name>.<cw> A, ...` (30_encoding.md R54). -/
def asmContainerInstr (name : List Char) (cw : ContainerWidth) (numbers : List Nat) : Option Instr :=
  if name = "bits".toList then match numbers with | [hi, lo] => some (.bits cw hi lo) | _ => none
  else if name = "padu".toList then match numbers with | [w] => some (.padu cw w) | _ => none
  else if name = "pads".toList then match numbers with | [w] => some (.pads cw w) | _ => none
  else if name = "cwu".toList then match numbers with | [] => some (.cwu cw) | _ => none
  else if name = "cws".toList then match numbers with | [] => some (.cws cw) | _ => none
  else if name = "shru".toList then match numbers with | [w] => some (.shru cw w) | _ => none
  else if name = "shrs".toList then match numbers with | [w] => some (.shrs cw w) | _ => none
  else none

/-- The operations written without a suffix (30_encoding.md R54). `encode A` is `encode A, 0` (R55). -/
def asmPlainInstr (name : List Char) (numbers : List Nat) : Option Instr :=
  if name = "calcw".toList then match numbers with | [] => some .calcw | _ => none
  else if name = "decode".toList then match numbers with | [len] => some (.decode len) | _ => none
  else if name = "encode".toList then
    match numbers with | [minWidth] => some (.encode minWidth) | [] => some (.encode 0) | _ => none
  else none

/-- The instruction a line names. -/
def asmInstr (line : AsmLine) : Option Instr :=
  match line.suffix with
  | none => asmPlainInstr line.mnemonic line.numbers
  | some bits => (asmContainer bits).bind fun cw => asmContainerInstr line.mnemonic cw line.numbers

/-- A is a 64-bit literal, or a negative decimal `-k`, which stands for `bits_64(-k)` (30_encoding.md R54). -/
def asmData (a : Int) : Option Data := if a < 2 ^ 64 then some (BitVec.ofInt 64 a) else none

/-- The request a line stands for. A number outside 0..255 is rejected; a number the operation will not accept is still encoded
(30_encoding.md R54). -/
def assemble (line : AsmLine) : Option Request :=
  match asmInstr line, asmData line.a with
  | some i, some a => if i.wellFormed then some { cmd := encode i, a := a } else none
  | _, _ => none

/-- The line of an instruction with the literal `a` (30_encoding.md R54). -/
def asmLine (i : Instr) (a : Int) : AsmLine :=
  let container (name : String) (cw : ContainerWidth) (numbers : List Nat) : AsmLine :=
    { mnemonic := name.toList, suffix := some (8 <<< cw.select), a := a, numbers := numbers }
  let plain (name : String) (numbers : List Nat) : AsmLine :=
    { mnemonic := name.toList, suffix := none, a := a, numbers := numbers }
  match i with
  | .bits cw hi lo => container "bits" cw [hi, lo]
  | .calcw => plain "calcw" []
  | .decode len => plain "decode" [len]
  | .encode minWidth => plain "encode" [minWidth]
  | .padu cw w => container "padu" cw [w]
  | .pads cw w => container "pads" cw [w]
  | .cwu cw => container "cwu" cw []
  | .cws cw => container "cws" cw []
  | .shru cw w => container "shru" cw [w]
  | .shrs cw w => container "shrs" cw [w]

/-! ## Reading a line of text -/

/-- The parts of a text between the separators. -/
def splitChars (sep : Char) : List Char → List (List Char)
  | [] => [[]]
  | c :: cs =>
    if c = sep then [] :: splitChars sep cs
    else match splitChars sep cs with
      | [] => [[c]]
      | part :: parts => (c :: part) :: parts

/-- Space or tab. -/
def isBlank (c : Char) : Bool := c = ' ' || c = '\t'

/-- The text without blanks at its ends. -/
def trimBlanks (cs : List Char) : List Char := ((cs.dropWhile isBlank).reverse.dropWhile isBlank).reverse

/-- The value of a hex digit. -/
def digitValue (c : Char) : Option Nat :=
  if '0' ≤ c ∧ c ≤ '9' then some (c.toNat - '0'.toNat)
  else if 'a' ≤ c ∧ c ≤ 'f' then some (c.toNat - 'a'.toNat + 10)
  else if 'A' ≤ c ∧ c ≤ 'F' then some (c.toNat - 'A'.toNat + 10)
  else none

/-- A number from its digits, of which there is at least one. -/
def readDigits (base : Nat) (cs : List Char) : Option Nat :=
  if cs = [] then none
  else cs.foldl (fun acc c => acc.bind fun v => (digitValue c).bind fun d => if d < base then some (v * base + d) else none) (some 0)

/-- The literal for A: hex after `0x`, decimal, or a negative decimal (30_encoding.md R54). -/
def readLiteral : List Char → Option Int
  | '0' :: 'x' :: cs => (readDigits 16 cs).map Int.ofNat
  | '-' :: cs => (readDigits 10 cs).map fun k => -Int.ofNat k
  | cs => (readDigits 10 cs).map Int.ofNat

/-- The numbers after A, all decimal. -/
def readNumbers : List (List Char) → Option (List Nat)
  | [] => some []
  | cs :: rest => (readDigits 10 (trimBlanks cs)).bind fun k => (readNumbers rest).map (k :: ·)

/-- The mnemonic and its suffix. -/
def readHead (cs : List Char) : Option (List Char × Option Nat) :=
  match splitChars '.' cs with
  | [name] => some (name, none)
  | [name, cw] => (readDigits 10 cw).map fun k => (name, some k)
  | _ => none

/-- A line of text in its parts; a comment begins at `;`. -/
def readLine (text : List Char) : Option AsmLine :=
  let line := trimBlanks (text.takeWhile fun c => decide (c ≠ ';'))
  match readHead (line.takeWhile fun c => !isBlank c), splitChars ',' (line.dropWhile fun c => !isBlank c) with
  | some (name, suffix), literal :: numbers =>
    (readLiteral (trimBlanks literal)).bind fun a =>
      (readNumbers numbers).map fun ns => { mnemonic := name, suffix := suffix, a := a, numbers := ns }
  | _, _ => none

/-- The request a line of text stands for (30_encoding.md R54, R55). -/
def assembleText (text : String) : Option Request := (readLine text.toList).bind assemble

end Sys2Proof.Machine
end

