-- ==== Sys2Proof/Machine/Respond.lean ====
section
/-! DEFINITION. The spec's own one-function model of the block, `respond(REF_COMPACT_WIDTH, CMD, A)` (10_state.md R29), written
as 30_encoding.md R51 writes it. The machine (Step.lean) reaches the same operations through the decoder; that the two
agree on every request is a statement. -/

namespace Sys2Proof.Machine

/-- `respond(REF, CMD, A)` (30_encoding.md R51). -/
def respond (ref : Bool) (cmd : Command) (a : Data) : Response :=
  let op := slice cmd.toNat 31 28
  let cws := slice cmd.toNat 27 26
  let rsv := slice cmd.toNat 25 16
  let b := slice cmd.toNat 15 8
  let c := slice cmd.toNat 7 0
  if ¬(1 ≤ op ∧ op ≤ 10) ∨ rsv ≠ 0 then Response.raise .illegalRequest
  else if (op = 2 ∨ op = 3 ∨ op = 4) ∧ cws ≠ 0 then Response.raise .illegalRequest
  else if (op = 2 ∨ op = 7 ∨ op = 8) ∧ b ≠ 0 then Response.raise .illegalRequest
  else if op ≠ 1 ∧ c ≠ 0 then Response.raise .illegalRequest
  else
    let cw := 8 <<< cws
    match op with
    | 1 => bitsResponse cw b c a
    | 2 => calcwResponse a
    | 3 => decodeResponse b a
    | 4 => encodeResponse b a
    | 5 => paduResponse cw b a
    | 6 => padsResponse cw b a
    | 7 => cwuResponse ref cw a
    | 8 => cwsResponse ref cw a
    | 9 => shruResponse ref cw b a
    | _ => shrsResponse ref cw b a

/-- The response to a request under a configuration (10_state.md R30). -/
def Request.response (cfg : Config) (r : Request) : Response := respond cfg.refCompactWidth r.cmd r.a

end Sys2Proof.Machine
end

