-- ==== Sys2Proof/Machine/Clocked.lean ====
section
/-! DEFINITION. A clocked realisation of the block (70_reset_and_hazards.md R106): each request's response appears PIPE_LATENCY
cycles after the request, in request order, one per request. PIPE_LATENCY (00_scope.md R10) is OPEN; it is the length of the
pipeline. At most one request enters a cycle, and a request at latency 0 is answered in its own cycle. DESIGN CHOICE (log 7). -/

namespace Sys2Proof.Machine

/-- A pipeline of PIPE_LATENCY stages, each holding a request in flight or none, oldest first. -/
structure Pipeline where
  config : Config
  stages : List (Option Request)
deriving DecidableEq, Repr

/-- After power-up nothing is in flight: the outputs of the first PIPE_LATENCY cycles are no responses (70_reset_and_hazards.md R101). -/
def Pipeline.powerUp (config : Config) (pipeLatency : Nat) : Pipeline where
  config := config
  stages := List.replicate pipeLatency none

/-- One clock cycle: the request presented, if any, enters behind those in flight, and the oldest one is answered. -/
def Pipeline.cycle (p : Pipeline) (input : Option Request) : Pipeline × Option Response :=
  match p.stages ++ [input] with
  | [] => (p, none)
  | oldest :: rest => ({ p with stages := rest }, oldest.map (Request.response p.config))

/-- The outputs of a sequence of cycles; `none` is an output that is no response. -/
def Pipeline.run : Pipeline → List (Option Request) → List (Option Response)
  | _, [] => []
  | p, input :: inputs => (p.cycle input).2 :: Pipeline.run (p.cycle input).1 inputs

end Sys2Proof.Machine
end

