-- ==== Sys2Proof/Machine/Stream.lean ====
section
/-! DEFINITION. What the spec obliges the host to do with a byte stream (70_reset_and_hazards.md R102, R103; 20_memory.md R35,
R36). This is the host's side: the block never advances through the stream itself. DEDUCED (log 8). -/

namespace Sys2Proof.Machine

/-- The first eight bytes of a stream packed into A, byte k at bits 63-8k : 56-8k (20_memory.md R35). Places past the end of the
stream hold 0; they are not valid bytes and are never read. -/
def packBytes (bytes : List Byte) : Data :=
  BitVec.ofNat 64 ((List.range maxVIntBytes).foldl (fun v k => v * 256 + (bytes.getD k 0#8).toNat) 0)

/-- The first n bytes of a packed sequence (20_memory.md R36). -/
def unpackBytes (n : Nat) (a : Data) : List Byte :=
  (List.range n).map fun k => BitVec.ofNat 8 (packedByte a k)

/-- The DECODE request for the VInt at the head of a stream: A holds the bytes, and len is the number then available, at most
the eight A can hold (70_reset_and_hazards.md R102). -/
def streamRequest (bytes : List Byte) : Request where
  cmd := encode (.decode (min maxVIntBytes bytes.length))
  a := packBytes bytes

/-- Decodes a stream VInt by VInt, moving on by N bytes after each success and ending at the first error (70_reset_and_hazards.md
R102); at most `count` requests. -/
def walkStream (cfg : Config) : Nat → List Byte → List Response
  | 0, _ => []
  | _ + 1, [] => []
  | count + 1, byte :: bytes =>
    let r := (streamRequest (byte :: bytes)).response cfg
    if r.err = 0 then r :: walkStream cfg count ((byte :: bytes).drop r.n) else [r]

/-- The ENCODE request for a value and a minimum width in bits (43_vint_codec.md R66). -/
def encodeRequest (v minWidth : Nat) : Request where
  cmd := encode (.encode minWidth)
  a := BitVec.ofNat 64 v

/-- The bytes a host writes out after an ENCODE: the first N bytes of RESULT (20_memory.md R36). -/
def Response.bytes (r : Response) : List Byte := unpackBytes r.n r.result

/-- The element size a host may take from a DECODE response: none for an error, and none for the Unknown sentinel, which the
host must test before it uses RESULT as a size (70_reset_and_hazards.md R103). -/
def Response.elementSize (r : Response) : Option Nat :=
  if r.err = 0 ∧ r.unk = false then some r.result.toNat else none

end Sys2Proof.Machine
end

