-- ==== Sys2Proof/Safety.lean ====
section
/-! DEFINITION. What a host may rely on in every response, whatever the request (10_state.md R25 to R27, 60_exceptions.md R89). -/

namespace Sys2Proof.Machine

/-- The response is one the spec allows: the fields are in their ranges; an error leaves every other field 0; UNK goes only
with the success of the 8-byte all-ones DECODE (10_state.md R25 to R27, 43_vint_codec.md R67, 60_exceptions.md R89). -/
structure Response.Legal (r : Response) : Prop where
  /-- ERR is 0..6; 7 is never produced (R25). -/
  err_le : r.err ≤ 6
  /-- N is 0..8 (R25). -/
  n_le : r.n ≤ 8
  /-- W is 0..66 (R25). -/
  w_le : r.w ≤ 66
  /-- STATUS[31:16] is always 0 (R25). -/
  upper_zero : r.status.toNat < 2 ^ 16
  /-- When ERR is not 0, every other output field is 0 (R27, R89). -/
  error_outputs : r.err ≠ 0 → r.result = 0#64 ∧ r.status.toNat = r.err
  /-- Every successful operation writes a width (R25, R50). -/
  success_width : r.err = 0 → 1 ≤ r.w
  /-- UNK = 1 only for the Unknown sentinel, a success of the 8-byte class (R26, R67). -/
  unknown : r.unk = true → r.err = 0 ∧ r.n = 8 ∧ r.w = 64 ∧ r.result = 0x00FFFFFFFFFFFFFF#64

/-- Every response given so far is one the spec allows. -/
def State.Legal (s : State) : Prop := ∀ r ∈ s.responses, r.Legal

/-- The state after the oldest request was answered: `rest` are the requests still unanswered and `r` is the response. The
configuration and the earlier responses are as before (10_state.md R28, 20_memory.md R39). -/
def State.answered (s : State) (rest : List Request) (r : Response) : State where
  config := s.config
  requests := rest
  responses := s.responses ++ [r]

/-- A success: RESULT, and STATUS with W at bits 15:8, N at 7:4, UNK at 3 and ERR = 0 (30_encoding.md R49), as numbers. -/
def Response.Succeeds (r : Response) (result w n : Nat) (unk : Bool) : Prop :=
  r.result.toNat = result ∧ r.status.toNat = 256 * w + 16 * n + if unk then 8 else 0

/-- The error response for a code: RESULT = 0 and STATUS = zext_32(E) (60_exceptions.md R89). -/
def Response.Fails (r : Response) (code : Nat) : Prop :=
  r.result = 0#64 ∧ r.status.toNat = code

end Sys2Proof.Machine
end

