-- ==== Sys2Proof/Certificates/Slice0/Obligations.lean ====
section
/-! DEFINITION. The statements for the provers. In every statement about an instruction, `req` is the oldest request presented
and the next state is `s.answered rest r`: the configuration, the other requests and the earlier responses stay as they
are, and `r` is the one response added. That requests and responses are held as lists, and that one step answers the oldest
request, is the model's choice (log 1); every statement about `step` is said in that form. Result and status are said in numbers or bits, apart from the model's own functions. -/

open Sys2Proof Sys2Proof.Machine

/-! ## The command word -/

/-- 30_encoding.md R42 to R44, R48: no field of an encoding is dropped. -/
def Obligations.DecodeOfEncodeIsIdentity : Prop :=
  ∀ i : Instr, i.wellFormed = true → decode (encode i) = .ok i

/-- 30_encoding.md R45, R54: a word the decoder accepts is the one word of its instruction, and its numbers fit their fields. -/
def Obligations.EncodeOfDecodeIsIdentity : Prop :=
  ∀ (c : Command) (i : Instr), decode c = .ok i → i.wellFormed = true ∧ encode i = c

/-- 30_encoding.md R53: one row of the opcode table, or ILLEGAL_REQUEST; ERR is never 7. -/
def Obligations.CommandSelectsOneRowOrIsIllegal : Prop :=
  ∀ (s : State) (req : Request) (rest : List Request), s.requests = req :: rest →
    ∃ r : Response, step s = .next (s.answered rest r) ∧ r.err ≠ 7 ∧
      ((∃ i, decode req.cmd = .ok i ∧ selectedMnemonics req.cmd = [i.mnemonic] ∧
          exec i s = .next (s.answered rest r) ∧ r.err ≠ 6) ∨
        (selectedMnemonics req.cmd = [] ∧ r.Fails 6))

/-- 30_encoding.md R45, the fields as numbers of CMD: a request is illegal exactly on the three conditions of the rule,
whatever A holds, and before any check of the operation's own. -/
def Obligations.IllegalRequestExactly : Prop :=
  ∀ (s : State) (req : Request) (rest : List Request), s.requests = req :: rest →
    let op := req.cmd.toNat / 2 ^ 28
    let cw := req.cmd.toNat / 2 ^ 26 % 4
    let rsv := req.cmd.toNat / 2 ^ 16 % 2 ^ 10
    let b := req.cmd.toNat / 2 ^ 8 % 256
    let c := req.cmd.toNat % 256
    let illegal := op = 0 ∨ 0xB ≤ op ∨ rsv ≠ 0 ∨ (cw ≠ 0 ∧ 2 ≤ op ∧ op ≤ 4) ∨
      (b ≠ 0 ∧ (op = 2 ∨ op = 7 ∨ op = 8)) ∨ (c ≠ 0 ∧ op ≠ 1)
    ∃ r : Response, step s = .next (s.answered rest r) ∧ (r.err = 6 ↔ illegal) ∧ (illegal → r.Fails 6)

/-- Words written out from 30_encoding.md R42 to R44 decode to the instructions they stand for. -/
def Obligations.SampleWordsDecode : Prop :=
  decode 0b0001_00_0000000000_00000111_00000011#32 = .ok (.bits .w8 7 3) ∧
  decode 0b0010_00_0000000000_00000000_00000000#32 = .ok .calcw ∧
  decode 0b0011_00_0000000000_00000010_00000000#32 = .ok (.decode 2) ∧
  decode 0b0100_00_0000000000_00001001_00000000#32 = .ok (.encode 9) ∧
  decode 0b0110_01_0000000000_00000101_00000000#32 = .ok (.pads .w16 5) ∧
  decode 0b1010_11_0000000000_00000100_00000000#32 = .ok (.shrs .w64 4)

/-- 30_encoding.md R47: the container width a CW field stands for. -/
def Obligations.ContainerWidthOfSelect : Prop :=
  (∀ k < 4, containerBits (ContainerWidth.ofSelect k) = 8 * 2 ^ k) ∧
  ∀ (c : Command) (cw : ContainerWidth) (hi lo : Nat), decode c = .ok (.bits cw hi lo) →
    containerBits cw = 8 * 2 ^ (c.toNat / 2 ^ 26 % 4)

/-- 30_encoding.md R54, R55: a line assembles exactly when its numbers are 0..255, and then to a request that the decoder reads
back; `encode A` is `encode A, 0`. The sizes of literals are the model's choice (log 9): a negative decimal of any size stands for
its `bits_64`, and a literal of 2^64 or more, which the model rejects, is outside the first clause. -/
def Obligations.AssemblerEncodesTheLine : Prop :=
  (∀ (i : Instr) (a : Int), a < 2 ^ 64 →
    (i.wellFormed = true →
      ∃ req, assemble (asmLine i a) = some req ∧ decode req.cmd = .ok i ∧ (req.a.toNat : Int) = a % 2 ^ 64) ∧
    (i.wellFormed = false → assemble (asmLine i a) = none)) ∧
  ∀ a : Int,
    assemble { mnemonic := "encode".toList, suffix := none, a := a, numbers := [] } = assemble (asmLine (.encode 0) a)

/-! ## The step and the run -/

/-- 10_state.md R22, R29: the step runs the operation the command word selects. -/
def Obligations.StepRunsTheDecodedInstruction : Prop :=
  ∀ (s : State) (req : Request) (rest : List Request) (i : Instr),
    s.requests = req :: rest → decode req.cmd = .ok i → step s = exec i s

/-- 10_state.md R30: the response depends only on the request's CMD and A and on REF_COMPACT_WIDTH, and it is `respond` of them
(30_encoding.md R51); nothing else changes. That it is the oldest request that a step answers is the model's choice (log 1). -/
def Obligations.StepIsRespond : Prop :=
  ∀ (s : State) (req : Request) (rest : List Request), s.requests = req :: rest →
    step s = .next (s.answered rest (respond s.config.refCompactWidth req.cmd req.a))

/-- 10_state.md R29, 70_reset_and_hazards.md R106: a run answers every request presented, in order, one response each. That one
step answers one request, and the oldest first, is the model's choice (log 1). -/
def Obligations.RunAnswersEveryRequestInOrder : Prop :=
  ∀ s : State, Host.Core.run Sys2Proof.core s.requests.length s =
    .next { config := s.config, requests := [], responses := s.responses ++ s.requests.map (Request.response s.config) }

/-- Without a request there is no step. The fault is the model's choice (log 2), after 93_implementation_defined.md I8. -/
def Obligations.NoStepWithoutRequest : Prop :=
  ∀ s : State, s.requests = [] → step s = .fault .noRequest

/-- After reset there is no request and no response (10_state.md R33). REF_COMPACT_WIDTH at its default is the model's choice
(log 3): the spec does not reset it. -/
def Obligations.ResetHasNoResponse : Prop :=
  State.reset.requests = [] ∧ State.reset.responses = [] ∧ State.reset.config.refCompactWidth = false

/-- The invariant of `ResponsesStayLegal` holds after reset. -/
def Obligations.ResetIsLegal : Prop := State.reset.Legal

/-- 10_state.md R25 to R27: in every response ERR, N and W are in their ranges, an error leaves every other field 0, and UNK
goes only with the 8-byte all-ones success. -/
def Obligations.ResponsesStayLegal : Prop :=
  ∀ s t : State, s.Legal → step s = .next t → t.Legal

/-- The frame of every operation (20_memory.md R39, 10_state.md R28): one request is consumed, one response is added, and the
configuration and the earlier responses stay as they are. -/
def Obligations.ExecOnlyAnswersOneRequest : Prop :=
  ∀ (i : Instr) (s t : State), exec i s = .next t →
    ∃ req rest r, s.requests = req :: rest ∧ t = s.answered rest r

/-- 60_exceptions.md R89: an error response has RESULT = 0 and STATUS = zext_32(E). -/
def Obligations.ErrorResponseIsCodeOnly : Prop :=
  ∀ (s : State) (req : Request) (rest : List Request), s.requests = req :: rest →
    ∃ r : Response, step s = .next (s.answered rest r) ∧
      (r.err ≠ 0 → r.result = 0#64 ∧ r.status = BitVec.ofNat 32 r.err ∧ r.unk = false ∧ r.n = 0 ∧ r.w = 0)

/-- 10_state.md R25, 30_encoding.md R49: where each ending puts each field of STATUS. -/
def Obligations.StatusFieldPositions : Prop :=
  (∀ (res w n : Nat) (u : Bool), w < 256 → n < 16 →
    (Response.ok res w n u).Succeeds (res % 2 ^ 64) w n u ∧
    (Response.ok res w n u).err = 0 ∧ (Response.ok res w n u).unk = u ∧
    (Response.ok res w n u).n = n ∧ (Response.ok res w n u).w = w) ∧
  ∀ e : ErrorCause, (Response.raise e).Fails (Response.raise e).err ∧ (Response.raise e).err = e.code

/-- 30_encoding.md R46, 20_memory.md R35: the bits of A outside what an operation reads never influence its response. -/
def Obligations.UnreadBitsOfAAreIgnored : Prop :=
  ∀ (i : Instr) (s₁ s₂ : State) (req₁ req₂ : Request) (rest₁ rest₂ : List Request),
    s₁.requests = req₁ :: rest₁ → s₂.requests = req₂ :: rest₂ → s₁.config = s₂.config →
    (match i with
      | .bits cw _ _ | .padu cw _ | .pads cw _ | .cwu cw | .cws cw | .shru cw _ | .shrs cw _ =>
        req₁.a.toNat % 2 ^ containerBits cw = req₂.a.toNat % 2 ^ containerBits cw
      | .calcw => req₁.a.toNat % 256 = req₂.a.toNat % 256
      | .decode len => req₁.a.toNat / 2 ^ (64 - 8 * len) = req₂.a.toNat / 2 ^ (64 - 8 * len)
      | .encode _ => req₁.a = req₂.a) →
    ∃ r, exec i s₁ = .next (s₁.answered rest₁ r) ∧ exec i s₂ = .next (s₂.answered rest₂ r)

/-! ## Errors: each code exactly on its cause (60_exceptions.md R86), in the order of R88 -/

/-- INVALID_ARGUMENT (60_exceptions.md R86, code 1). -/
def Obligations.InvalidArgumentExactly : Prop :=
  ∀ (i : Instr) (s : State) (req : Request) (rest : List Request), s.requests = req :: rest →
    let cause := match i with
      | .bits cw hi lo => hi < lo ∨ containerBits cw ≤ hi
      | .decode len => len = 0 ∨ 8 < len
      | .padu cw w | .pads cw w => w = 0 ∨ containerBits cw < w
      | .shru _ w | .shrs _ w => w = 0 ∨ 64 < w
      | .calcw | .encode _ | .cwu _ | .cws _ => False
    ∃ r : Response, exec i s = .next (s.answered rest r) ∧ (r.err = 1 ↔ cause) ∧ (cause → r.Fails 1)

/-- INVALID_ENCODING (60_exceptions.md R86, code 2): a zero head byte, after DECODE's check of len (R88). -/
def Obligations.InvalidEncodingExactly : Prop :=
  ∀ (i : Instr) (s : State) (req : Request) (rest : List Request), s.requests = req :: rest →
    let cause := match i with
      | .calcw => req.a.toNat % 256 = 0
      | .decode len => 1 ≤ len ∧ len ≤ 8 ∧ req.a.toNat / 2 ^ 56 = 0
      | _ => False
    ∃ r : Response, exec i s = .next (s.answered rest r) ∧ (r.err = 2 ↔ cause) ∧ (cause → r.Fails 2)

/-- TRUNCATED_INPUT (60_exceptions.md R86, code 3): the marker declares more than len bytes, so the head byte is below
`2^(8-len)`; a zero head byte is INVALID_ENCODING instead (R88). -/
def Obligations.TruncatedInputExactly : Prop :=
  ∀ (i : Instr) (s : State) (req : Request) (rest : List Request), s.requests = req :: rest →
    let cause := match i with
      | .decode len => 1 ≤ len ∧ len ≤ 8 ∧ 0 < req.a.toNat / 2 ^ 56 ∧ req.a.toNat / 2 ^ 56 < 2 ^ (8 - len)
      | _ => False
    ∃ r : Response, exec i s = .next (s.answered rest r) ∧ (r.err = 3 ↔ cause) ∧ (cause → r.Fails 3)

/-- VALUE_TOO_LARGE (60_exceptions.md R86, code 4). -/
def Obligations.ValueTooLargeExactly : Prop :=
  ∀ (i : Instr) (s : State) (req : Request) (rest : List Request), s.requests = req :: rest →
    let cause := match i with
      | .encode minWidth => 2 ^ 56 ≤ req.a.toNat ∨ 64 < minWidth
      | _ => False
    ∃ r : Response, exec i s = .next (s.answered rest r) ∧ (r.err = 4 ↔ cause) ∧ (cause → r.Fails 4)

/-- DOES_NOT_FIT (60_exceptions.md R86, code 5), as ranges of the value: with REF = 0 those a w-bit field cannot hold
(45_integer_shrinker.md R76, R77); with REF = 1 those of 45_integer_shrinker.md §4. The SHRS range at REF = 1 is no fact of
the reference but follows the spec's own reading of its signed width ("This is the spec's reading of what ... means for
CWS", 45_integer_shrinker.md §3; log 6). -/
def Obligations.DoesNotFitExactly : Prop :=
  ∀ (i : Instr) (s : State) (req : Request) (rest : List Request), s.requests = req :: rest →
    let cause := match i, s.config.refCompactWidth with
      | .shru cw w, false => 1 ≤ w ∧ w ≤ 64 ∧ 2 ^ w ≤ req.a.toNat % 2 ^ containerBits cw
      | .shru cw w, true => 1 ≤ w ∧ w ≤ 64 ∧ 2 ^ (w - 1) ≤ req.a.toNat % 2 ^ containerBits cw
      | .shrs cw w, false => 1 ≤ w ∧ w ≤ 64 ∧
          ((req.a.setWidth (containerBits cw)).toInt < -2 ^ (w - 1) ∨ 2 ^ (w - 1) ≤ (req.a.setWidth (containerBits cw)).toInt)
      | .shrs cw w, true => 1 ≤ w ∧ w ≤ 64 ∧
          (w = 1 ∨ 2 ^ (w - 2) ≤ (req.a.setWidth (containerBits cw)).toInt.natAbs)
      | _, _ => False
    ∃ r : Response, exec i s = .next (s.answered rest r) ∧ (r.err = 5 ↔ cause) ∧ (cause → r.Fails 5)

/-! ## BITS (41_bit_extractor.md) -/

/-- 41_bit_extractor.md R56: bit k of RESULT is bit lo + k of A, for k up to hi - lo, and 0 above; W is the number of bits. -/
def Obligations.BitsExtractsTheRange : Prop :=
  ∀ (s : State) (req : Request) (rest : List Request) (cw : ContainerWidth) (hi lo : Nat), s.requests = req :: rest →
    lo ≤ hi → hi < containerBits cw →
    ∃ r : Response, exec (.bits cw hi lo) s = .next (s.answered rest r) ∧
      r.status.toNat = 256 * (hi - lo + 1) ∧
      ∀ k, r.result.getLsbD k = (decide (k ≤ hi - lo) && req.a.getLsbD (lo + k))

/-- 41_bit_extractor.md R57: the two laws. -/
def Obligations.BitsLaws : Prop :=
  ∀ (s : State) (req : Request) (rest : List Request) (cw : ContainerWidth) (hi lo : Nat), s.requests = req :: rest →
    lo ≤ hi → hi < containerBits cw →
    let x := req.a.toNat % 2 ^ containerBits cw
    ∃ r : Response, exec (.bits cw hi lo) s = .next (s.answered rest r) ∧
      r.result.toNat < 2 ^ (hi - lo + 1) ∧
      r.result.toNat * 2 ^ lo + x % 2 ^ lo + (x / 2 ^ (hi + 1)) * 2 ^ (hi + 1) = x

/-! ## CALCW (42_width_calculator.md) -/

/-- 42_width_calculator.md R58: a head byte that is not 0 has N - 1 zeros, then a one; payloadBits = 7N. -/
def Obligations.CalcwFindsTheMarker : Prop :=
  ∀ (s : State) (req : Request) (rest : List Request), s.requests = req :: rest → req.a.toNat % 256 ≠ 0 →
    ∃ (n : Nat) (r : Response), 1 ≤ n ∧ n ≤ 8 ∧ 2 ^ (8 - n) ≤ req.a.toNat % 256 ∧ req.a.toNat % 256 < 2 ^ (9 - n) ∧
      exec .calcw s = .next (s.answered rest r) ∧ r.Succeeds (7 * n) (7 * n) n false

/-- 42_width_calculator.md R59: payloadBits = 7 × (8 - p), p the LSB-0 position of the first set bit, and it strictly increases
as p decreases. -/
def Obligations.CalcwIsMonotone : Prop :=
  ∀ (s₁ s₂ : State) (req₁ req₂ : Request) (rest₁ rest₂ : List Request) (p₁ p₂ : Nat),
    s₁.requests = req₁ :: rest₁ → s₂.requests = req₂ :: rest₂ →
    2 ^ p₁ ≤ req₁.a.toNat % 256 → req₁.a.toNat % 256 < 2 ^ (p₁ + 1) →
    2 ^ p₂ ≤ req₂.a.toNat % 256 → req₂.a.toNat % 256 < 2 ^ (p₂ + 1) →
    ∃ r₁ r₂ : Response, exec .calcw s₁ = .next (s₁.answered rest₁ r₁) ∧ exec .calcw s₂ = .next (s₂.answered rest₂ r₂) ∧
      r₁.result.toNat = 7 * (8 - p₁) ∧ r₂.result.toNat = 7 * (8 - p₂) ∧
      (p₁ < p₂ → r₂.result.toNat < r₁.result.toNat)

/-- 42_width_calculator.md R60: payloadBits = 7N, totalWidth = payloadBits + markerWidth = 8N; the head byte's top N bits are N - 1
zeros and a one; a successful DECODE of the same head byte has the same N and that totalWidth. -/
def Obligations.CalcwRelations : Prop :=
  ∀ (s : State) (req : Request) (rest : List Request), s.requests = req :: rest → req.a.toNat % 256 ≠ 0 →
    ∃ r : Response, exec .calcw s = .next (s.answered rest r) ∧ r.err = 0 ∧
      r.result.toNat = 7 * r.n ∧ r.result.toNat + r.n = 8 * r.n ∧ req.a.toNat % 256 / 2 ^ (8 - r.n) = 1 ∧
      ∀ (s' : State) (req' : Request) (rest' : List Request) (len : Nat) (r' : Response),
        s'.requests = req' :: rest' → req'.a.toNat / 2 ^ 56 = req.a.toNat % 256 →
        exec (.decode len) s' = .next (s'.answered rest' r') → r'.err = 0 →
        r'.n = r.n ∧ r'.w = r.result.toNat + r.n

/-! ## DECODE and ENCODE (43_vint_codec.md) -/

/-- 43_vint_codec.md R61, R63: if the first n bytes of A, read as one big-endian number, are `2^(7n) + v`, then DECODE answers v,
consumes n bytes, and sets UNK only for the 8-byte all-ones payload; longer classes than needed are read alike (R64). -/
def Obligations.DecodeReadsTheVInt : Prop :=
  ∀ (s : State) (req : Request) (rest : List Request) (len n v : Nat), s.requests = req :: rest →
    1 ≤ n → n ≤ len → len ≤ 8 → v < 2 ^ (7 * n) → req.a.toNat / 2 ^ (64 - 8 * n) = 2 ^ (7 * n) + v →
    ∃ r : Response, exec (.decode len) s = .next (s.answered rest r) ∧
      r.Succeeds v (8 * n) n (decide (n = 8 ∧ v = 2 ^ 56 - 1))

/-- 43_vint_codec.md R65: a successful DECODE reads only its first N bytes; the others do not affect the response. -/
def Obligations.DecodeReadsOnlyItsBytes : Prop :=
  ∀ (s₁ s₂ : State) (req₁ req₂ : Request) (rest₁ rest₂ : List Request) (len : Nat),
    s₁.requests = req₁ :: rest₁ → s₂.requests = req₂ :: rest₂ →
    ∃ r : Response, exec (.decode len) s₁ = .next (s₁.answered rest₁ r) ∧
      (r.err = 0 → r.n ≤ len ∧
        (req₁.a.toNat / 2 ^ (64 - 8 * r.n) = req₂.a.toNat / 2 ^ (64 - 8 * r.n) →
          exec (.decode len) s₂ = .next (s₂.answered rest₂ r)))

/-- 10_state.md R26, 43_vint_codec.md R67: among all operations, UNK = 1 exactly for a DECODE of eight bytes, 0x01 and seven 0xFF;
it is a success with RESULT = 2^56 - 1. -/
def Obligations.UnknownFlagExactly : Prop :=
  ∀ (i : Instr) (s : State) (req : Request) (rest : List Request), s.requests = req :: rest →
    ∃ r : Response, exec i s = .next (s.answered rest r) ∧
      (r.unk = true ↔ i = .decode 8 ∧ req.a = 0x01FFFFFFFFFFFFFF#64) ∧
      (r.unk = true → r.Succeeds (2 ^ 56 - 1) 64 8 true)

/-- 43_vint_codec.md R61, R66: ENCODE answers the n bytes whose big-endian number is `2^(7n) + v`, zero after them, for the least
class n that holds v and has at least minWidth bits. -/
def Obligations.EncodeUsesTheSmallestClass : Prop :=
  ∀ (s : State) (req : Request) (rest : List Request) (minWidth : Nat), s.requests = req :: rest →
    req.a.toNat < 2 ^ 56 → minWidth ≤ 64 →
    ∃ (n : Nat) (r : Response), exec (.encode minWidth) s = .next (s.answered rest r) ∧
      1 ≤ n ∧ n ≤ 8 ∧ req.a.toNat < 2 ^ (7 * n) ∧ minWidth ≤ 8 * n ∧
      (∀ m, 1 ≤ m → req.a.toNat < 2 ^ (7 * m) → minWidth ≤ 8 * m → n ≤ m) ∧
      r.Succeeds ((2 ^ (7 * n) + req.a.toNat) * 2 ^ (64 - 8 * n)) (8 * n) n false

/-- 43_vint_codec.md R68: DECODE of an ENCODE answers the value, with the same N and W; `nv` is the least class of the value. -/
def Obligations.VIntRoundTrip : Prop :=
  ∀ (s₁ : State) (req₁ : Request) (rest₁ : List Request) (minWidth nv : Nat), s₁.requests = req₁ :: rest₁ →
    req₁.a.toNat < 2 ^ 56 → minWidth ≤ 64 →
    1 ≤ nv → req₁.a.toNat < 2 ^ (7 * nv) → (∀ m, 1 ≤ m → req₁.a.toNat < 2 ^ (7 * m) → nv ≤ m) →
    ∃ r₁ : Response, exec (.encode minWidth) s₁ = .next (s₁.answered rest₁ r₁) ∧
      r₁.err = 0 ∧ r₁.n = max (max nv ((minWidth + 7) / 8)) 1 ∧
      ∀ (s₂ : State) (req₂ : Request) (rest₂ : List Request), s₂.requests = req₂ :: rest₂ → req₂.a = r₁.result →
        ∃ r₂ : Response, exec (.decode r₁.n) s₂ = .next (s₂.answered rest₂ r₂) ∧
          r₂.result = req₁.a ∧ r₂.err = 0 ∧ r₂.n = r₁.n ∧ r₂.w = r₁.w

/-- 43_vint_codec.md R69: with minWidth = 0 the encoding is the shortest, `max(1, ceil(bitlen(v) / 7))` bytes, so class k for
`2^(7(k-1)) ≤ v < 2^(7k)`. -/
def Obligations.EncodeIsShortest : Prop :=
  ∀ (s : State) (req : Request) (rest : List Request), s.requests = req :: rest → req.a.toNat < 2 ^ 56 →
    ∃ r : Response, exec (.encode 0) s = .next (s.answered rest r) ∧ r.err = 0 ∧
      r.n = max 1 ((Nat.size req.a.toNat + 6) / 7) ∧
      (req.a.toNat < 2 ^ 7 → r.n = 1) ∧
      ∀ k, 2 ≤ k → k ≤ 8 → 2 ^ (7 * (k - 1)) ≤ req.a.toNat → req.a.toNat < 2 ^ (7 * k) → r.n = k

/-- 43_vint_codec.md R70: ENCODE does not refuse 2^56 - 1; a DECODE of its result answers the value with UNK = 1. -/
def Obligations.EncodeEmitsTheSentinel : Prop :=
  ∀ (s : State) (req : Request) (rest : List Request), s.requests = req :: rest → req.a = 0x00FFFFFFFFFFFFFF#64 →
    ∃ r : Response, exec (.encode 0) s = .next (s.answered rest r) ∧ r.Succeeds 0x01FFFFFFFFFFFFFF 64 8 false ∧
      ∀ (s₂ : State) (req₂ : Request) (rest₂ : List Request), s₂.requests = req₂ :: rest₂ → req₂.a = r.result →
        ∃ r₂ : Response, exec (.decode 8) s₂ = .next (s₂.answered rest₂ r₂) ∧
          r₂.Succeeds 0x00FFFFFFFFFFFFFF 64 8 true

/-! ## PADU and PADS (44_integer_padder.md) -/

/-- 44_integer_padder.md R72: the low w bits of A, zero above; W = w. -/
def Obligations.PaduZeroExtends : Prop :=
  ∀ (s : State) (req : Request) (rest : List Request) (cw : ContainerWidth) (w : Nat), s.requests = req :: rest →
    1 ≤ w → w ≤ containerBits cw →
    ∃ r : Response, exec (.padu cw w) s = .next (s.answered rest r) ∧ r.Succeeds (req.a.toNat % 2 ^ w) w 0 false

/-- 44_integer_padder.md R73, R74: bits below w are A's, bits from w up to the container's width are copies of bit w - 1, and bits
above the container are 0, at every width from 1 on; W = w. -/
def Obligations.PadsSignExtends : Prop :=
  ∀ (s : State) (req : Request) (rest : List Request) (cw : ContainerWidth) (w : Nat), s.requests = req :: rest →
    1 ≤ w → w ≤ containerBits cw →
    ∃ r : Response, exec (.pads cw w) s = .next (s.answered rest r) ∧ r.status.toNat = 256 * w ∧
      ∀ k, r.result.getLsbD k =
        if k < w then req.a.getLsbD k else decide (k < containerBits cw) && req.a.getLsbD (w - 1)

/-- 44_integer_padder.md R75: PADU answers `uint(x) mod 2^w`; PADS answers `bits_cw(sint_w(x[w-1:0]))`, whose reading at cw bits lies
in the range of a w-bit signed field. -/
def Obligations.PaddingLaws : Prop :=
  ∀ (s : State) (req : Request) (rest : List Request) (cw : ContainerWidth) (w : Nat), s.requests = req :: rest →
    1 ≤ w → w ≤ containerBits cw →
    ∃ ru rs : Response, exec (.padu cw w) s = .next (s.answered rest ru) ∧ exec (.pads cw w) s = .next (s.answered rest rs) ∧
      ru.result.toNat = req.a.toNat % 2 ^ containerBits cw % 2 ^ w ∧
      rs.result = (BitVec.ofInt (containerBits cw) (req.a.setWidth w).toInt).setWidth 64 ∧
      -2 ^ (w - 1) ≤ (rs.result.setWidth (containerBits cw)).toInt ∧
      (rs.result.setWidth (containerBits cw)).toInt ≤ 2 ^ (w - 1) - 1

/-! ## CWU, CWS, SHRU and SHRS (45_integer_shrinker.md) -/

/-- 45_integer_shrinker.md R76, with REF = 0: CWU answers `max(bitlen(v), 1)`, the least w ≥ 1 with v ≤ 2^w - 1. -/
def Obligations.CwuIsMinimal : Prop :=
  ∀ (s : State) (req : Request) (rest : List Request) (cw : ContainerWidth), s.requests = req :: rest →
    s.config.refCompactWidth = false →
    let v := req.a.toNat % 2 ^ containerBits cw
    ∃ (c : Nat) (r : Response), exec (.cwu cw) s = .next (s.answered rest r) ∧ r.Succeeds c c 0 false ∧
      c = max (Nat.size v) 1 ∧ c = (if v = 0 then 1 else Nat.log 2 v + 1) ∧
      v ≤ 2 ^ c - 1 ∧ ∀ w, 1 ≤ w → v ≤ 2 ^ w - 1 → c ≤ w

/-- 45_integer_shrinker.md R77, with REF = 0: CWS answers the least w ≥ 1 with -2^(w-1) ≤ v ≤ 2^(w-1) - 1, v the
two's-complement value of the container, and the two closed forms. -/
def Obligations.CwsIsMinimal : Prop :=
  ∀ (s : State) (req : Request) (rest : List Request) (cw : ContainerWidth), s.requests = req :: rest →
    s.config.refCompactWidth = false →
    let v := (req.a.setWidth (containerBits cw)).toInt
    ∃ (c : Nat) (r : Response), exec (.cws cw) s = .next (s.answered rest r) ∧ r.Succeeds c c 0 false ∧
      1 ≤ c ∧ -2 ^ (c - 1) ≤ v ∧ v ≤ 2 ^ (c - 1) - 1 ∧
      (∀ w : Nat, 1 ≤ w → -2 ^ (w - 1) ≤ v → v ≤ 2 ^ (w - 1) - 1 → c ≤ w) ∧
      (0 ≤ v → c = Nat.size v.toNat + 1) ∧ (v < 0 → c = Nat.size (-v - 1).toNat + 1)

/-- 45_integer_shrinker.md §3, with REF = 1: CWU answers `bitlen(v) + 1 = ceil(log2(v+1)) + 1`, CWS answers
`bitlen(|v|) + 2`. The signed width is the spec's own reading of the reference ("This is the spec's reading of what ...
means for CWS"; log 6). -/
def Obligations.ReferenceCompactWidths : Prop :=
  ∀ (s : State) (req : Request) (rest : List Request) (cw : ContainerWidth), s.requests = req :: rest →
    s.config.refCompactWidth = true →
    let u := req.a.toNat % 2 ^ containerBits cw
    let v := (req.a.setWidth (containerBits cw)).toInt
    ∃ ru rs : Response, exec (.cwu cw) s = .next (s.answered rest ru) ∧ exec (.cws cw) s = .next (s.answered rest rs) ∧
      ru.Succeeds (Nat.size u + 1) (Nat.size u + 1) 0 false ∧ Nat.size u + 1 = Nat.clog 2 (u + 1) + 1 ∧
      rs.Succeeds (Nat.size v.natAbs + 2) (Nat.size v.natAbs + 2) 0 false

/-- 45_integer_shrinker.md R80, with REF = 0: a value below 2^w is answered unchanged; W is its compact width. -/
def Obligations.ShruPacksWhatFits : Prop :=
  ∀ (s : State) (req : Request) (rest : List Request) (cw : ContainerWidth) (w : Nat), s.requests = req :: rest →
    s.config.refCompactWidth = false → 1 ≤ w → w ≤ 64 →
    let v := req.a.toNat % 2 ^ containerBits cw
    v < 2 ^ w →
    ∃ r : Response, exec (.shru cw w) s = .next (s.answered rest r) ∧ r.Succeeds v (max (Nat.size v) 1) 0 false

/-- 45_integer_shrinker.md R81, with REF = 0: a value in the range of a w-bit signed field is answered as its w-bit pattern, zero
above; W is its compact width. -/
def Obligations.ShrsPacksWhatFits : Prop :=
  ∀ (s : State) (req : Request) (rest : List Request) (cw : ContainerWidth) (w : Nat), s.requests = req :: rest →
    s.config.refCompactWidth = false → 1 ≤ w → w ≤ 64 →
    let v := (req.a.setWidth (containerBits cw)).toInt
    v ≤ 2 ^ (w - 1) - 1 → -2 ^ (w - 1) ≤ v →
    ∃ r : Response, exec (.shrs cw w) s = .next (s.answered rest r) ∧
      r.Succeeds (BitVec.ofInt w v).toNat ((if 0 ≤ v then Nat.size v.toNat else Nat.size (-v - 1).toNat) + 1) 0 false

/-- 45_integer_shrinker.md R83: the unsigned round trip, with REF = 0. -/
def Obligations.UnsignedRoundTrip : Prop :=
  ∀ (s₁ : State) (req₁ : Request) (rest₁ : List Request) (w v : Nat), s₁.requests = req₁ :: rest₁ →
    s₁.config.refCompactWidth = false → 1 ≤ w → w ≤ 64 → v ≤ 2 ^ w - 1 → req₁.a = BitVec.ofNat 64 v →
    ∃ r₁ : Response, exec (.shru .w64 w) s₁ = .next (s₁.answered rest₁ r₁) ∧ r₁.err = 0 ∧ r₁.result.toNat = v ∧
      ∀ (s₂ : State) (req₂ : Request) (rest₂ : List Request), s₂.requests = req₂ :: rest₂ → req₂.a = r₁.result →
        ∃ r₂ : Response, exec (.padu .w64 w) s₂ = .next (s₂.answered rest₂ r₂) ∧ r₂.err = 0 ∧ r₂.result.toNat = v

/-- 45_integer_shrinker.md R84: the signed round trip, with REF = 0. -/
def Obligations.SignedRoundTrip : Prop :=
  ∀ (s₁ : State) (req₁ : Request) (rest₁ : List Request) (w : Nat) (v : Int), s₁.requests = req₁ :: rest₁ →
    s₁.config.refCompactWidth = false → 1 ≤ w → w ≤ 64 → -2 ^ (w - 1) ≤ v → v ≤ 2 ^ (w - 1) - 1 →
    req₁.a = BitVec.ofInt 64 v →
    ∃ r₁ : Response, exec (.shrs .w64 w) s₁ = .next (s₁.answered rest₁ r₁) ∧ r₁.err = 0 ∧
      r₁.result.toNat = (BitVec.ofInt w v).toNat ∧
      ∀ (s₂ : State) (req₂ : Request) (rest₂ : List Request), s₂.requests = req₂ :: rest₂ → req₂.a = r₁.result →
        ∃ r₂ : Response, exec (.pads .w64 w) s₂ = .next (s₂.answered rest₂ r₂) ∧ r₂.err = 0 ∧
          r₂.result = BitVec.ofInt 64 v ∧ r₂.result.toInt = v

/-- 45_integer_shrinker.md §4, with REF = 1: SHRU succeeds exactly when v < 2^(w-1), SHRS exactly when w ≥ 2 and |v| < 2^(w-2);
they answer the value and its w-bit pattern, and PADU and PADS recover the value. That the reference's signed width is this
one is the spec's own reading (log 6). -/
def Obligations.ReferenceModePacking : Prop :=
  ∀ (s : State) (req : Request) (rest : List Request) (cw : ContainerWidth) (w : Nat), s.requests = req :: rest →
    s.config.refCompactWidth = true → 1 ≤ w → w ≤ 64 →
    let u := req.a.toNat % 2 ^ containerBits cw
    let v := (req.a.setWidth (containerBits cw)).toInt
    ∃ ru rs : Response, exec (.shru cw w) s = .next (s.answered rest ru) ∧ exec (.shrs cw w) s = .next (s.answered rest rs) ∧
      (ru.err = 0 ↔ u < 2 ^ (w - 1)) ∧ (rs.err = 0 ↔ 2 ≤ w ∧ v.natAbs < 2 ^ (w - 2)) ∧
      (ru.err = 0 → ru.Succeeds u (Nat.size u + 1) 0 false) ∧
      (rs.err = 0 → rs.Succeeds (BitVec.ofInt w v).toNat (Nat.size v.natAbs + 2) 0 false) ∧
      ∀ (s₂ : State) (req₂ : Request) (rest₂ : List Request), s₂.requests = req₂ :: rest₂ →
        (ru.err = 0 → req₂.a = ru.result →
          ∃ r₂ : Response, exec (.padu .w64 w) s₂ = .next (s₂.answered rest₂ r₂) ∧ r₂.Succeeds u w 0 false) ∧
        (rs.err = 0 → req₂.a = rs.result →
          ∃ r₂ : Response, exec (.pads .w64 w) s₂ = .next (s₂.answered rest₂ r₂) ∧ r₂.err = 0 ∧ r₂.result.toInt = v)

/-! ## The block in its surroundings -/

/-- 70_reset_and_hazards.md R101, R106: in a clocked realisation the output of cycle t is the response to the request of cycle
t - PIPE_LATENCY, and the first PIPE_LATENCY outputs are no responses. The pipeline is the model's choice (log 7). -/
def Obligations.ClockedResponsesComeInOrder : Prop :=
  ∀ (cfg : Config) (pipeLatency : Nat) (inputs : List (Option Request)),
    (Pipeline.powerUp cfg pipeLatency).run inputs =
      (List.replicate pipeLatency none ++ inputs.map (Option.map (Request.response cfg))).take inputs.length

/-- 70_reset_and_hazards.md R103: the size a host takes from a DECODE response is none for an error and for the Unknown sentinel,
and RESULT otherwise. That the test gives no size is the model's reading of the rule (log 8). -/
def Obligations.ElementSizeIsNeverTheSentinel : Prop :=
  ∀ (s : State) (req : Request) (rest : List Request) (len : Nat), s.requests = req :: rest →
    ∃ r : Response, exec (.decode len) s = .next (s.answered rest r) ∧
      r.elementSize = if r.err = 0 ∧ req.a ≠ 0x01FFFFFFFFFFFFFF#64 then some r.result.toNat else none

/-- 70_reset_and_hazards.md R102: a host that moves on by N bytes after each DECODE reads back every value of a stream of ENCODE
results. The host's walk is the model's reading of the rule (log 8). -/
def Obligations.StreamWalkReadsEveryValue : Prop :=
  ∀ (cfg : Config) (items : List (Nat × Nat)), (∀ p ∈ items, p.1 < 2 ^ 56 ∧ p.2 ≤ 64) →
    (walkStream cfg items.length (items.flatMap fun p => ((encodeRequest p.1 p.2).response cfg).bytes)).map
        (fun r => (r.err, r.result.toNat)) =
      items.map fun p => (0, p.1)
end

