-- ==== Sys2Proof/Laws/Arith.lean ====
section
/-! SUPPORT. The spec's notation (Machine/Arith.lean, Machine/Operands.lean) in terms of division, remainder, `Nat.size` and
the two's-complement reading of a `BitVec`. -/

namespace Sys2Proof.Machine

/-! ## Slices and bit lengths -/

theorem slice_eq_div_mod (v hi lo : Nat) : slice v hi lo = v / 2 ^ lo % 2 ^ (hi - lo + 1) := by
  simp [slice, Nat.shiftRight_eq_div_pow]

theorem bitlen_eq_size (v : Nat) : bitlen v = Nat.size v := by
  unfold bitlen
  split
  · simp [*]
  · rename_i h
    refine le_antisymm (Nat.succ_le_of_lt ?_) (Nat.size_le.2 Nat.lt_log2_self)
    rw [Nat.log2_lt h]
    exact Nat.lt_size_self v

/-- bitlen is the least k with v < 2^k (00_scope.md R14). -/
theorem bitlen_le_iff (v k : Nat) : bitlen v ≤ k ↔ v < 2 ^ k := by
  rw [bitlen_eq_size, Nat.size_le]

theorem bitlen_eq_of_bounds {v p : Nat} (lo : 2 ^ p ≤ v) (hi : v < 2 ^ (p + 1)) : bitlen v = p + 1 := by
  have h1 := (bitlen_le_iff v (p + 1)).2 hi
  have h2 := mt (bitlen_le_iff v p).1 (Nat.not_lt.2 lo)
  omega

/-! ## Two's complement -/

theorem patternOf_eq_ofInt (n : Nat) (v : Int) : patternOf n v = (BitVec.ofInt n v).toNat := by
  simp [patternOf, BitVec.toNat_ofInt]

theorem patternOf_lt (n : Nat) (v : Int) : patternOf n v < 2 ^ n := by
  rw [patternOf_eq_ofInt]
  exact BitVec.isLt _

/-- `sint_n` is the two's-complement reading of an n-bit pattern (00_scope.md R13). -/
theorem sint_eq_toInt {n : Nat} (x : BitVec n) : sint n x.toNat = x.toInt := by
  rw [BitVec.toInt_eq_msb_cond, BitVec.msb_eq_getLsbD_last, BitVec.getLsbD, sint]
  split <;> simp

/-! ## Operands -/

theorem containerBits_eq (cw : ContainerWidth) :
    containerBits cw = match cw with | .w8 => 8 | .w16 => 16 | .w32 => 32 | .w64 => 64 := by
  cases cw <;> rfl

theorem containerBits_pos (cw : ContainerWidth) : 0 < containerBits cw := by
  cases cw <;> decide

theorem containerBits_le (cw : ContainerWidth) : containerBits cw ≤ 64 := by
  cases cw <;> decide

theorem containerBits_ofSelect {k : Nat} (h : k < 4) : containerBits (ContainerWidth.ofSelect k) = 8 <<< k := by
  interval_cases k <;> rfl

theorem containerUint_eq_mod {cw : Nat} (h : 0 < cw) (a : Data) : containerUint cw a = a.toNat % 2 ^ cw := by
  simp [containerUint, slice_eq_div_mod, Nat.sub_add_cancel h]

/-- The signed reading of a container (30_encoding.md R46). -/
theorem containerSint_eq_toInt {cw : Nat} (h : 0 < cw) (a : Data) : containerSint cw a = (a.setWidth cw).toInt := by
  rw [containerSint, containerUint_eq_mod h, ← BitVec.toNat_setWidth, sint_eq_toInt]

theorem headByte_eq_mod (a : Data) : headByte a = a.toNat % 256 := by
  simp [headByte, slice_eq_div_mod]

theorem packedByte_eq (a : Data) {k : Nat} (h : k < 8) : packedByte a k = a.toNat / 2 ^ (56 - 8 * k) % 256 := by
  rw [packedByte, slice_eq_div_mod, show 63 - 8 * k - (56 - 8 * k) + 1 = 8 by omega]
  rfl

theorem packedByte_zero (a : Data) : packedByte a 0 = a.toNat / 2 ^ 56 := by
  rw [packedByte_eq a (by omega)]
  have := a.isLt
  omega

end Sys2Proof.Machine
end

