-- ==== Sys2Proof/Laws/Command.lean ====
section
/-! SUPPORT. The fields of a command word as numbers, and what packing one puts in each. -/

namespace Sys2Proof

theorem Command.op_eq (c : Command) : Command.op c = c.toNat / 2 ^ 28 := by
  have := c.isLt
  simp only [Command.op, BitVec.extractLsb'_toNat, Nat.shiftRight_eq_div_pow]
  omega

theorem Command.cw_eq (c : Command) : Command.cw c = c.toNat / 2 ^ 26 % 4 := by
  simp [Command.cw, BitVec.extractLsb'_toNat, Nat.shiftRight_eq_div_pow]

theorem Command.rsv_eq (c : Command) : Command.rsv c = c.toNat / 2 ^ 16 % 2 ^ 10 := by
  simp [Command.rsv, BitVec.extractLsb'_toNat, Nat.shiftRight_eq_div_pow]

theorem Command.b_eq (c : Command) : Command.b c = c.toNat / 2 ^ 8 % 256 := by
  simp [Command.b, BitVec.extractLsb'_toNat, Nat.shiftRight_eq_div_pow]

theorem Command.c_eq (c : Command) : Command.c c = c.toNat % 256 := by
  simp [Command.c, BitVec.extractLsb'_toNat]

theorem Command.op_lt (c : Command) : Command.op c < 16 := BitVec.isLt _

theorem Command.cw_lt (c : Command) : Command.cw c < 4 := BitVec.isLt _

theorem Command.b_lt (c : Command) : Command.b c < 256 := BitVec.isLt _

theorem Command.c_lt (c : Command) : Command.c c < 256 := BitVec.isLt _

@[simp] theorem ContainerWidth.ofSelect_select (cw : ContainerWidth) : ContainerWidth.ofSelect cw.select = cw := by
  cases cw <;> rfl

theorem ContainerWidth.select_ofSelect {k : Nat} (h : k < 4) : (ContainerWidth.ofSelect k).select = k := by
  interval_cases k <;> rfl

@[simp] theorem ContainerWidth.select_mod (cw : ContainerWidth) : cw.select % 4 = cw.select := by
  cases cw <;> rfl

/-- A command word is the number its five fields make. -/
theorem Command.toNat_eq_fields (c : Command) :
    c.toNat = Command.op c * 2 ^ 28 + Command.cw c * 2 ^ 26 + Command.rsv c * 2 ^ 16 + Command.b c * 2 ^ 8 + Command.c c := by
  have := c.isLt
  rw [Command.op_eq, Command.cw_eq, Command.rsv_eq, Command.b_eq, Command.c_eq]
  omega

theorem packCommand_toNat (op cw b c : Nat) :
    (packCommand op cw b c).toNat = op % 16 * 2 ^ 28 + cw % 4 * 2 ^ 26 + b % 256 * 2 ^ 8 + c % 256 := by
  have hop : op % 16 < 16 := Nat.mod_lt _ (by decide)
  have hcw : cw % 4 < 4 := Nat.mod_lt _ (by decide)
  have hb : b % 256 < 256 := Nat.mod_lt _ (by decide)
  have hc : c % 256 < 256 := Nat.mod_lt _ (by decide)
  simp only [packCommand, BitVec.toNat_setWidth, BitVec.toNat_append, BitVec.toNat_ofNat]
  rw [← Nat.shiftLeft_add_eq_or_of_lt (by omega), ← Nat.shiftLeft_add_eq_or_of_lt (by omega),
    ← Nat.shiftLeft_add_eq_or_of_lt (by omega), ← Nat.shiftLeft_add_eq_or_of_lt (by omega)]
  simp only [Nat.shiftLeft_eq]
  omega

@[simp] theorem packCommand_op (op cw b c : Nat) : Command.op (packCommand op cw b c) = op % 16 := by
  rw [Command.op_eq, packCommand_toNat]
  omega

@[simp] theorem packCommand_cw (op cw b c : Nat) : Command.cw (packCommand op cw b c) = cw % 4 := by
  rw [Command.cw_eq, packCommand_toNat]
  omega

@[simp] theorem packCommand_rsv (op cw b c : Nat) : Command.rsv (packCommand op cw b c) = 0 := by
  rw [Command.rsv_eq, packCommand_toNat]
  omega

@[simp] theorem packCommand_b (op cw b c : Nat) : Command.b (packCommand op cw b c) = b % 256 := by
  rw [Command.b_eq, packCommand_toNat]
  omega

@[simp] theorem packCommand_c (op cw b c : Nat) : Command.c (packCommand op cw b c) = c % 256 := by
  rw [Command.c_eq, packCommand_toNat]
  omega

/-! ## Decoding, inverted -/

/-- All that decoding can answer: the operation number, the instruction, and the fields that are 0 (30_encoding.md R43, R44). -/
theorem decode_ok_cases {c : Command} {i : Instr} (h : decode c = .ok i) :
    Command.rsv c = 0 ∧
    ((Command.op c = 1 ∧ i = .bits (.ofSelect (Command.cw c)) (Command.b c) (Command.c c)) ∨
    (Command.op c = 2 ∧ i = .calcw ∧ Command.cw c = 0 ∧ Command.b c = 0 ∧ Command.c c = 0) ∨
    (Command.op c = 3 ∧ i = .decode (Command.b c) ∧ Command.cw c = 0 ∧ Command.c c = 0) ∨
    (Command.op c = 4 ∧ i = .encode (Command.b c) ∧ Command.cw c = 0 ∧ Command.c c = 0) ∨
    (Command.op c = 5 ∧ i = .padu (.ofSelect (Command.cw c)) (Command.b c) ∧ Command.c c = 0) ∨
    (Command.op c = 6 ∧ i = .pads (.ofSelect (Command.cw c)) (Command.b c) ∧ Command.c c = 0) ∨
    (Command.op c = 7 ∧ i = .cwu (.ofSelect (Command.cw c)) ∧ Command.b c = 0 ∧ Command.c c = 0) ∨
    (Command.op c = 8 ∧ i = .cws (.ofSelect (Command.cw c)) ∧ Command.b c = 0 ∧ Command.c c = 0) ∨
    (Command.op c = 9 ∧ i = .shru (.ofSelect (Command.cw c)) (Command.b c) ∧ Command.c c = 0) ∨
    (Command.op c = 10 ∧ i = .shrs (.ofSelect (Command.cw c)) (Command.b c) ∧ Command.c c = 0)) := by
  have hop := Command.op_lt c
  unfold decode at h
  generalize Command.op c = op at *
  generalize Command.cw c = cw at *
  generalize Command.b c = b at *
  generalize Command.c c = cc at *
  generalize Command.rsv c = r at *
  unfold requireZero at h
  interval_cases op <;> dsimp only at h <;> split_ifs at h <;> (try cases h) <;> simp_all

/-- A word is rejected only on a condition of 30_encoding.md R45. -/
theorem decode_error_cases {c : Command} {e : Rejection} (h : decode c = .error e) :
    Command.op c = 0 ∨ 11 ≤ Command.op c ∨ Command.rsv c ≠ 0 ∨ (Command.cw c ≠ 0 ∧ 2 ≤ Command.op c ∧ Command.op c ≤ 4) ∨
      (Command.b c ≠ 0 ∧ (Command.op c = 2 ∨ Command.op c = 7 ∨ Command.op c = 8)) ∨ (Command.c c ≠ 0 ∧ Command.op c ≠ 1) := by
  have hop := Command.op_lt c
  unfold decode at h
  generalize Command.op c = op at *
  generalize Command.cw c = cw at *
  generalize Command.b c = b at *
  generalize Command.c c = cc at *
  generalize Command.rsv c = r at *
  unfold requireZero at h
  interval_cases op <;> dsimp only at h <;> split_ifs at h <;> (try cases h) <;> simp_all

end Sys2Proof
end

