-- ==== Sys2Proof/Laws/State.lean ====
section
/-! SUPPORT. The fields of the state after each update. -/

namespace Sys2Proof.Machine

@[simp] theorem State.answered_config (s : State) (rest : List Request) (r : Response) :
    (s.answered rest r).config = s.config := rfl
@[simp] theorem State.answered_requests (s : State) (rest : List Request) (r : Response) :
    (s.answered rest r).requests = rest := rfl
@[simp] theorem State.answered_responses (s : State) (rest : List Request) (r : Response) :
    (s.answered rest r).responses = s.responses ++ [r] := rfl

@[simp] theorem State.present_config (s : State) (r : Request) : (s.present r).config = s.config := rfl
@[simp] theorem State.present_requests (s : State) (r : Request) : (s.present r).requests = s.requests ++ [r] := rfl
@[simp] theorem State.present_responses (s : State) (r : Request) : (s.present r).responses = s.responses := rfl

@[simp] theorem State.withFetchWord_config (s : State) (nbits w : Nat) : (s.withFetchWord nbits w).config = s.config := rfl
@[simp] theorem State.withFetchWord_requests (s : State) (nbits w : Nat) :
    (s.withFetchWord nbits w).requests =
      { cmd := commandOfBits nbits w, a := dataOfBits nbits w } :: s.requests := rfl
@[simp] theorem State.withFetchWord_responses (s : State) (nbits w : Nat) :
    (s.withFetchWord nbits w).responses = s.responses := rfl

@[simp] theorem State.reset_config : State.reset.config = Config.default := rfl
@[simp] theorem State.reset_requests : State.reset.requests = [] := rfl
@[simp] theorem State.reset_responses : State.reset.responses = [] := rfl

end Sys2Proof.Machine
end

