-- ==== Sys2Proof/Laws/Ops.lean ====
section
/-! SUPPORT. What answering a request does, and the fields of the two endings of an operation. -/

namespace Sys2Proof.Machine

/-! ## Answering a request -/

/-- All that answering a presented request does. -/
theorem State.answer_of_request {s : State} {req : Request} {rest : List Request} (h : s.requests = req :: rest)
    (op : Bool → Data → Response) :
    s.answer op = .next (s.answered rest (op s.config.refCompactWidth req.a)) := by
  simp [State.answer, h, State.answered]

theorem State.answer_of_no_request {s : State} (h : s.requests = []) (op : Bool → Data → Response) :
    s.answer op = .fault .noRequest := by
  simp [State.answer, h]

/-- If answering goes on, it answered the oldest request and did nothing else. -/
theorem State.answer_next_cases {s t : State} {op : Bool → Data → Response} (h : s.answer op = .next t) :
    ∃ req rest, s.requests = req :: rest ∧ t = s.answered rest (op s.config.refCompactWidth req.a) := by
  match hs : s.requests with
  | [] => simp [State.answer_of_no_request hs] at h
  | req :: rest =>
    rw [State.answer_of_request hs] at h
    exact ⟨req, rest, rfl, by injection h with h; exact h.symm⟩

theorem State.fetch_of_request {s : State} {req : Request} {rest : List Request} (h : s.requests = req :: rest) :
    s.fetch = some req := by
  simp [State.fetch, h]

/-! ## Each operation answers with its response function -/

@[simp] theorem exec_bits (cw : ContainerWidth) (hi lo : Nat) (s : State) :
    exec (.bits cw hi lo) s = s.answer fun _ a => bitsResponse (containerBits cw) hi lo a := rfl
@[simp] theorem exec_calcw (s : State) : exec .calcw s = s.answer fun _ a => calcwResponse a := rfl
@[simp] theorem exec_decode (len : Nat) (s : State) : exec (.decode len) s = s.answer fun _ a => decodeResponse len a := rfl
@[simp] theorem exec_encode (minWidth : Nat) (s : State) :
    exec (.encode minWidth) s = s.answer fun _ a => encodeResponse minWidth a := rfl
@[simp] theorem exec_padu (cw : ContainerWidth) (w : Nat) (s : State) :
    exec (.padu cw w) s = s.answer fun _ a => paduResponse (containerBits cw) w a := rfl
@[simp] theorem exec_pads (cw : ContainerWidth) (w : Nat) (s : State) :
    exec (.pads cw w) s = s.answer fun _ a => padsResponse (containerBits cw) w a := rfl
@[simp] theorem exec_cwu (cw : ContainerWidth) (s : State) :
    exec (.cwu cw) s = s.answer fun ref a => cwuResponse ref (containerBits cw) a := rfl
@[simp] theorem exec_cws (cw : ContainerWidth) (s : State) :
    exec (.cws cw) s = s.answer fun ref a => cwsResponse ref (containerBits cw) a := rfl
@[simp] theorem exec_shru (cw : ContainerWidth) (w : Nat) (s : State) :
    exec (.shru cw w) s = s.answer fun ref a => shruResponse ref (containerBits cw) w a := rfl
@[simp] theorem exec_shrs (cw : ContainerWidth) (w : Nat) (s : State) :
    exec (.shrs cw w) s = s.answer fun ref a => shrsResponse ref (containerBits cw) w a := rfl

/-! ## The STATUS word -/

theorem successStatus_toNat_mod (w n : Nat) (u : Bool) :
    (successStatus w n u).toNat = 256 * (w % 256) + 16 * (n % 16) + if u then 8 else 0 := by
  have h1 : w % 256 < 256 := Nat.mod_lt _ (by decide)
  have h2 : n % 16 < 16 := Nat.mod_lt _ (by decide)
  simp only [successStatus, BitVec.zeroExtend, BitVec.toNat_setWidth, BitVec.toNat_append, BitVec.toNat_ofNat]
  rw [← Nat.shiftLeft_add_eq_or_of_lt (by decide), ← Nat.shiftLeft_add_eq_or_of_lt (by cases u <;> decide),
    ← Nat.shiftLeft_add_eq_or_of_lt (by omega)]
  cases u <;> simp [Nat.shiftLeft_eq] <;> omega

theorem successStatus_toNat {w n : Nat} (hw : w < 256) (hn : n < 16) (u : Bool) :
    (successStatus w n u).toNat = 256 * w + 16 * n + if u then 8 else 0 := by
  rw [successStatus_toNat_mod, Nat.mod_eq_of_lt hw, Nat.mod_eq_of_lt hn]

theorem errorStatus_toNat (e : ErrorCause) : (errorStatus e).toNat = e.code := by
  cases e <;> rfl

theorem Response.err_eq (r : Response) : r.err = r.status.toNat % 8 := by
  simp [Response.err, BitVec.extractLsb'_toNat]

theorem Response.n_eq (r : Response) : r.n = r.status.toNat / 16 % 16 := by
  simp [Response.n, BitVec.extractLsb'_toNat, Nat.shiftRight_eq_div_pow]

theorem Response.w_eq (r : Response) : r.w = r.status.toNat / 256 % 256 := by
  simp [Response.w, BitVec.extractLsb'_toNat, Nat.shiftRight_eq_div_pow]

theorem Response.unk_eq (r : Response) : r.unk = decide (r.status.toNat / 8 % 2 = 1) := by
  simp [Response.unk, BitVec.getLsbD, Nat.testBit_eq_decide_div_mod_eq]

/-! ## The endings of an operation -/

@[simp] theorem Response.ok_result (res w n : Nat) (u : Bool) : (Response.ok res w n u).result = BitVec.ofNat 64 res := rfl
@[simp] theorem Response.ok_status (res w n : Nat) (u : Bool) : (Response.ok res w n u).status = successStatus w n u := rfl
@[simp] theorem Response.raise_result (e : ErrorCause) : (Response.raise e).result = 0#64 := rfl
@[simp] theorem Response.raise_status (e : ErrorCause) : (Response.raise e).status = errorStatus e := rfl

@[simp] theorem Response.ok_err (res w n : Nat) (u : Bool) : (Response.ok res w n u).err = 0 := by
  rw [Response.err_eq, Response.ok_status, successStatus_toNat_mod]
  split <;> omega

@[simp] theorem Response.raise_err (e : ErrorCause) : (Response.raise e).err = e.code := by
  cases e <;> rfl

@[simp] theorem Response.raise_unk (e : ErrorCause) : (Response.raise e).unk = false := by
  cases e <;> rfl

@[simp] theorem Response.raise_n (e : ErrorCause) : (Response.raise e).n = 0 := by
  cases e <;> rfl

@[simp] theorem Response.raise_w (e : ErrorCause) : (Response.raise e).w = 0 := by
  cases e <;> rfl

theorem ErrorCause.code_pos (e : ErrorCause) : 1 ≤ e.code := by cases e <;> decide

theorem ErrorCause.code_le (e : ErrorCause) : e.code ≤ 6 := by cases e <;> decide

theorem Response.ok_unk {w n : Nat} (hw : w < 256) (hn : n < 16) (res : Nat) (u : Bool) :
    (Response.ok res w n u).unk = u := by
  rw [Response.unk_eq, Response.ok_status, successStatus_toNat hw hn]
  cases u <;> simp <;> omega

theorem Response.ok_n {w n : Nat} (hw : w < 256) (hn : n < 16) (res : Nat) (u : Bool) :
    (Response.ok res w n u).n = n := by
  rw [Response.n_eq, Response.ok_status, successStatus_toNat hw hn]
  cases u <;> simp <;> omega

theorem Response.ok_w {w n : Nat} (hw : w < 256) (hn : n < 16) (res : Nat) (u : Bool) :
    (Response.ok res w n u).w = w := by
  rw [Response.w_eq, Response.ok_status, successStatus_toNat hw hn]
  cases u <;> simp <;> omega

/-- A success whose result and fields are in range, as numbers. -/
theorem Response.ok_succeeds {res w n : Nat} (hr : res < 2 ^ 64) (hw : w < 256) (hn : n < 16) (u : Bool) :
    (Response.ok res w n u).Succeeds res w n u :=
  ⟨by simpa using Nat.mod_eq_of_lt hr, successStatus_toNat hw hn u⟩

theorem Response.raise_fails (e : ErrorCause) : (Response.raise e).Fails e.code :=
  ⟨rfl, errorStatus_toNat e⟩

end Sys2Proof.Machine
end

