-- ==== Sys2Proof/Laws/Meanings.lean ====
section
/-! SUPPORT. One lemma, or a few, for each function the operations are made of: what it computes, in numbers. -/

namespace Sys2Proof.Machine

/-! ## The marker (42_width_calculator.md R58) -/

theorem markerWidth_of_bit {h p : Nat} (hp : p < 8) (lo : 2 ^ p ≤ h) (hi : h < 2 ^ (p + 1)) : markerWidth h = 8 - p := by
  rw [markerWidth, markerIndex, bitlen_eq_of_bounds lo hi]
  omega

theorem markerWidth_eq_of_bounds {h n : Nat} (h1 : 1 ≤ n) (h8 : n ≤ 8) (lo : 2 ^ (8 - n) ≤ h) (hi : h < 2 ^ (9 - n)) :
    markerWidth h = n := by
  rw [markerWidth_of_bit (p := 8 - n) (by omega) lo (by rwa [show 8 - n + 1 = 9 - n by omega])]
  omega

/-- A head byte that is not 0 has its marker in one of the eight places. -/
theorem markerWidth_spec {h : Nat} (h0 : h ≠ 0) (h256 : h < 256) :
    1 ≤ markerWidth h ∧ markerWidth h ≤ 8 ∧ 2 ^ (8 - markerWidth h) ≤ h ∧ h < 2 ^ (9 - markerWidth h) := by
  have lo := Nat.log2_self_le h0
  have hi := Nat.lt_log2_self (n := h)
  have hp : h.log2 < 8 := (Nat.log2_lt h0).2 h256
  rw [markerWidth_of_bit hp lo hi]
  refine ⟨by omega, by omega, ?_, ?_⟩
  · rwa [show 8 - (8 - h.log2) = h.log2 by omega]
  · rwa [show 9 - (8 - h.log2) = h.log2 + 1 by omega]

/-! ## The VInt (43_vint_codec.md R61, R63, R66) -/

/-- Taking one more byte of a packed sequence into a big-endian value. -/
theorem append_packedByte (a : Data) {k m : Nat} (hk : 1 ≤ k) (h : k < 8) :
    ((a.toNat / 2 ^ (64 - 8 * k) % 2 ^ m) <<< 8) ||| packedByte a k = a.toNat / 2 ^ (64 - 8 * (k + 1)) % 2 ^ (m + 8) := by
  have hb : packedByte a k < 2 ^ 8 := by
    rw [packedByte_eq a h]
    exact Nat.mod_lt _ (by decide)
  rw [← Nat.shiftLeft_add_eq_or_of_lt hb, Nat.shiftLeft_eq, packedByte_eq a h, Nat.pow_add, Nat.mul_comm (2 ^ m),
    Nat.mod_mul, show 64 - 8 * k = 64 - 8 * (k + 1) + 8 by omega, Nat.pow_add, ← Nat.div_div_eq_div_mul,
    show 56 - 8 * k = 64 - 8 * (k + 1) by omega]
  ring

/-- The value DECODE accumulates over m more bytes. -/
theorem foldl_packedByte (a : Data) (w m : Nat) : ∀ n, m + n ≤ 8 → 1 ≤ n →
    (List.range' n m).foldl (fun v k => (v <<< 8) ||| packedByte a k) (a.toNat / 2 ^ (64 - 8 * n) % 2 ^ (8 * n - w))
      = a.toNat / 2 ^ (64 - 8 * (n + m)) % 2 ^ (8 * (n + m) - w) ∨ 8 * n < w := by
  induction m with
  | zero => intro n _ _; left; rfl
  | succ m ih =>
    intro n hn h1
    by_cases hw : 8 * n < w
    · exact .inr hw
    · left
      rw [List.range'_succ, List.foldl_cons, append_packedByte a h1 (by omega),
        show 8 * n - w + 8 = 8 * (n + 1) - w by omega, show n + (m + 1) = n + 1 + m by omega]
      exact (ih (n + 1) (by omega) (by omega)).resolve_right (by omega)

/-- DECODE's value is the payload of the first n bytes: the low 7n bits of their big-endian number. -/
theorem vintValue_eq (a : Data) {n : Nat} (h1 : 1 ≤ n) (h8 : n ≤ 8) :
    vintValue n a = a.toNat / 2 ^ (64 - 8 * n) % 2 ^ (7 * n) := by
  have hmask : packedByte a 0 &&& (0xFF >>> n) = a.toNat / 2 ^ (64 - 8 * 1) % 2 ^ (8 * 1 - n) := by
    rw [packedByte_zero, ← Nat.and_two_pow_sub_one_eq_mod]
    congr 1
    interval_cases n <;> rfl
  rw [vintValue, hmask, (foldl_packedByte a n (n - 1) 1 (by omega) (by omega)).resolve_right (by omega),
    show 1 + (n - 1) = n by omega, show 8 * n - n = 7 * n by omega]

/-- The class ENCODE chooses (43_vint_codec.md R66). -/
theorem smallestClass_eq_some_iff (v minWidth n : Nat) :
    smallestClass v minWidth = some n ↔
      (1 ≤ n ∧ n ≤ 8 ∧ v < 2 ^ (7 * n) ∧ minWidth ≤ 8 * n) ∧
        ∀ m, 1 ≤ m → v < 2 ^ (7 * m) → minWidth ≤ 8 * m → n ≤ m := by
  rw [smallestClass, List.find?_range'_eq_some]
  simp only [Bool.and_eq_true, decide_eq_true_eq, maxVIntBytes, List.mem_range'_1, Bool.not_eq_true', Bool.and_eq_false_iff,
    decide_eq_false_iff_not, ge_iff_le]
  constructor
  · rintro ⟨⟨hv, hw⟩, ⟨h1, h8⟩, hmin⟩
    refine ⟨⟨h1, by omega, hv, hw⟩, fun m hm hvm hwm => ?_⟩
    by_contra hlt
    rcases hmin m hm (by omega) with h | h <;> omega
  · rintro ⟨⟨h1, h8, hv, hw⟩, hmin⟩
    refine ⟨⟨hv, hw⟩, ⟨h1, by omega⟩, fun m hm hlt => ?_⟩
    by_contra hcon
    rw [not_or, not_not, not_not] at hcon
    have := hmin m hm hcon.1 hcon.2
    omega

/-- No class fits exactly for a value of more than 56 bits or a minimum width of more than 64 (90_conflicts.md C8). -/
theorem smallestClass_eq_none_iff (v minWidth : Nat) :
    smallestClass v minWidth = none ↔ 2 ^ 56 ≤ v ∨ 64 < minWidth := by
  rw [smallestClass, List.find?_eq_none]
  simp only [List.mem_range'_1, maxVIntBytes, Bool.and_eq_true, decide_eq_true_eq, not_and, ge_iff_le]
  constructor
  · intro h
    by_contra hcon
    rw [not_or, Nat.not_le, Nat.not_lt] at hcon
    exact h 8 (by omega) hcon.1 (by omega)
  · rintro (h | h) n hn hv
    · have : 2 ^ (7 * n) ≤ 2 ^ 56 := Nat.pow_le_pow_right (by decide) (by omega)
      omega
    · omega

/-! ## Compact widths (45_integer_shrinker.md R76, R77, R82, R85) -/

theorem compactUnsigned_pos (ref : Bool) (v : Nat) : 1 ≤ compactUnsigned ref v := by
  cases ref <;> simp [compactUnsigned]

theorem compactUnsigned_minimal_le_iff {w : Nat} (hw : 1 ≤ w) (v : Nat) : compactUnsigned false v ≤ w ↔ v < 2 ^ w := by
  rw [← bitlen_le_iff]
  simp [compactUnsigned, hw]

theorem compactUnsigned_reference_le_iff {w : Nat} (hw : 1 ≤ w) (v : Nat) :
    compactUnsigned true v ≤ w ↔ v < 2 ^ (w - 1) := by
  rw [← bitlen_le_iff]
  simp [compactUnsigned]
  omega

theorem compactSigned_pos (ref : Bool) (v : Int) : 1 ≤ compactSigned ref v := by
  unfold compactSigned
  split_ifs <;> omega

theorem compactSigned_minimal_le_iff {w : Nat} (hw : 1 ≤ w) (v : Int) :
    compactSigned false v ≤ w ↔ -2 ^ (w - 1) ≤ v ∧ v ≤ 2 ^ (w - 1) - 1 := by
  have hp : ((2 ^ (w - 1) : Nat) : Int) = 2 ^ (w - 1) := by push_cast; rfl
  have hu := bitlen_le_iff v.toNat (w - 1)
  have hs := bitlen_le_iff (-v - 1).toNat (w - 1)
  simp only [compactSigned, Bool.false_eq_true, if_false]
  rw [← hp]
  split_ifs <;> omega

theorem compactSigned_reference_le_iff {w : Nat} (hw : 1 ≤ w) (v : Int) :
    compactSigned true v ≤ w ↔ 2 ≤ w ∧ v.natAbs < 2 ^ (w - 2) := by
  have h := bitlen_le_iff v.natAbs (w - 2)
  simp only [compactSigned, compactUnsigned, if_true]
  omega

/-! ## Signed fields (44_integer_padder.md R73, 45_integer_shrinker.md R81) -/

/-- The value of a w-bit signed field is the two's-complement reading of its low w bits, at width 1 too (R74). -/
theorem signedFieldValue_eq_toInt {w : Nat} (hw : 1 ≤ w) (x : Nat) :
    signedFieldValue w x = (BitVec.ofNat w x).toInt := by
  obtain ⟨k, rfl⟩ : ∃ k, w = k + 1 := ⟨w - 1, by omega⟩
  have hmag : (if k + 1 = 1 then 0 else slice x (k + 1 - 2) 0) = x % 2 ^ k := by
    split_ifs with h
    · obtain rfl : k = 0 := by omega
      simp [Nat.mod_one]
    · rw [slice_eq_div_mod, show k + 1 - 2 - 0 + 1 = k by omega]
      simp
  have hsplit : x % 2 ^ (k + 1) = x % 2 ^ k + 2 ^ k * (x / 2 ^ k % 2) := Nat.mod_pow_succ
  have hp : ((2 ^ k : Nat) : Int) = 2 ^ k := by push_cast; rfl
  rw [signedFieldValue, hmag, BitVec.toInt_eq_msb_cond, BitVec.msb_eq_getLsbD_last]
  simp only [BitVec.getLsbD_ofNat, BitVec.toNat_ofNat, Nat.add_sub_cancel, Nat.lt_succ_self, decide_true, Bool.true_and]
  rw [Nat.testBit_eq_decide_div_mod_eq, hsplit]
  rcases Nat.mod_two_eq_zero_or_one (x / 2 ^ k) with h | h
  · simp [h]
  · simp [h, pow_succ]
    omega

/-- SHRS's raw bits are the w-bit pattern of a value that fits (45_integer_shrinker.md R81: "both cases equal"). -/
theorem patternOf_rawBits {w : Nat} (hw : 1 ≤ w) {v : Int} (hv : -2 ^ (w - 1) ≤ v) :
    patternOf w (rawBits w v) = patternOf w v := by
  obtain ⟨k, rfl⟩ : ∃ k, w = k + 1 := ⟨w - 1, by omega⟩
  have hp : ((2 ^ k : Nat) : Int) = 2 ^ k := by push_cast; rfl
  simp only [Nat.add_sub_cancel] at hv
  unfold rawBits
  split_ifs with h
  · rw [Int.toNat_of_nonneg h]
  · have hlt : (2 ^ k + v).toNat < 2 ^ k := by omega
    have hor : (2 ^ k + v).toNat ||| 2 ^ k = 2 ^ k + (2 ^ k + v).toNat := by
      rw [Nat.or_comm]
      simpa using (Nat.two_pow_add_eq_or_of_lt hlt 1).symm
    have hint : ((2 ^ k + (2 ^ k + v).toNat : Nat) : Int) = v + 2 ^ (k + 1) := by
      push_cast
      rw [Int.toNat_of_nonneg (by omega), pow_succ]
      ring
    simp only [Nat.add_sub_cancel]
    rw [hor, hint, patternOf, patternOf, Int.add_emod_right]

end Sys2Proof.Machine
end

