-- ==== Sys2Proof/Laws/PerInstr.lean ====
section
/-! SUPPORT. A family of facts about every instruction as syntax, one lemma per constructor: its command word carries its
operation number and an RSV field of 0 (30_encoding.md R42, R43). -/

namespace Sys2Proof.Laws

/-- The operation number of an instruction, from the table of 30_encoding.md R43. -/
def CommandHeader.opOf : Instr → Nat
  | .bits _ _ _ => 1
  | .calcw => 2
  | .decode _ => 3
  | .encode _ => 4
  | .padu _ _ => 5
  | .pads _ _ => 6
  | .cwu _ => 7
  | .cws _ => 8
  | .shru _ _ => 9
  | .shrs _ _ => 10

/-- The command word of the instruction holds its operation number in OP and 0 in RSV. -/
def CommandHeader.Statement (i : Instr) : Prop :=
  Command.op (encode i) = CommandHeader.opOf i ∧ Command.rsv (encode i) = 0

theorem CommandHeader.of_pack (op cw b c : Nat) (h : op < 16) :
    Command.op (packCommand op cw b c) = op ∧ Command.rsv (packCommand op cw b c) = 0 := by
  rw [packCommand_op, packCommand_rsv]
  exact ⟨Nat.mod_eq_of_lt h, rfl⟩

theorem CommandHeader.bits (cw : ContainerWidth) (hi lo : Nat) : CommandHeader.Statement (.bits cw hi lo) :=
  CommandHeader.of_pack _ _ _ _ (by decide)
theorem CommandHeader.calcw : CommandHeader.Statement .calcw := CommandHeader.of_pack _ _ _ _ (by decide)
theorem CommandHeader.decode (len : Nat) : CommandHeader.Statement (.decode len) :=
  CommandHeader.of_pack _ _ _ _ (by decide)
theorem CommandHeader.encode (minWidth : Nat) : CommandHeader.Statement (.encode minWidth) :=
  CommandHeader.of_pack _ _ _ _ (by decide)
theorem CommandHeader.padu (cw : ContainerWidth) (width : Nat) : CommandHeader.Statement (.padu cw width) :=
  CommandHeader.of_pack _ _ _ _ (by decide)
theorem CommandHeader.pads (cw : ContainerWidth) (width : Nat) : CommandHeader.Statement (.pads cw width) :=
  CommandHeader.of_pack _ _ _ _ (by decide)
theorem CommandHeader.cwu (cw : ContainerWidth) : CommandHeader.Statement (.cwu cw) :=
  CommandHeader.of_pack _ _ _ _ (by decide)
theorem CommandHeader.cws (cw : ContainerWidth) : CommandHeader.Statement (.cws cw) :=
  CommandHeader.of_pack _ _ _ _ (by decide)
theorem CommandHeader.shru (cw : ContainerWidth) (width : Nat) : CommandHeader.Statement (.shru cw width) :=
  CommandHeader.of_pack _ _ _ _ (by decide)
theorem CommandHeader.shrs (cw : ContainerWidth) (width : Nat) : CommandHeader.Statement (.shrs cw width) :=
  CommandHeader.of_pack _ _ _ _ (by decide)

end Sys2Proof.Laws
end

