-- ==== Sys2Proof/Laws/Step.lean ====
section
/-! SUPPORT. What the step does, by the request presented. -/

namespace Sys2Proof.Machine

theorem step_of_illegal {s : State} {req : Request} {rest : List Request} {why : Rejection}
    (h : s.requests = req :: rest) (hd : decode req.cmd = .error why) :
    step s = .next (s.answered rest (Response.raise .illegalRequest)) := by
  simp [step, State.fetch_of_request h, hd, answerIllegal, State.answer_of_request h]

end Sys2Proof.Machine
end

