-- ==== Sys2Proof/Tests/Slice0.lean ====
section
/-! SUPPORT. Tests: command words written out from 30_encoding.md R42 to R44, ill-formed instructions, one-step tests whose
expected responses are rows of spec/95_test_vectors.md (its section is named at each), and a witness for the hypotheses of
every statement. -/

namespace Sys2Proof.Tests

open Sys2Proof.Machine

/-- A state with one request presented. -/
def presented (ref : Bool) (cmd : Command) (a : Data) : State :=
  { config := { refCompactWidth := ref }, requests := [{ cmd := cmd, a := a }], responses := [] }

/-- The response of one step, if the step goes on and leaves that one response and no request. -/
def responseTo (ref : Bool) (cmd : Command) (a : Data) : Option Response :=
  match step (presented ref cmd a) with
  | .next { requests := [], responses := [r], .. } => some r
  | _ => none

/-! ## Decoding: words written out from the encodings -/

theorem test_decode_bits : decode 0b0001_10_0000000000_00011111_00010000#32 = .ok (.bits .w32 31 16) := by decide
theorem test_decode_calcw : decode 0b0010_00_0000000000_00000000_00000000#32 = .ok .calcw := by decide
theorem test_decode_decode : decode 0b0011_00_0000000000_00001000_00000000#32 = .ok (.decode 8) := by decide
theorem test_decode_encode : decode 0b0100_00_0000000000_11111111_00000000#32 = .ok (.encode 255) := by decide
theorem test_decode_padu : decode 0b0101_11_0000000000_01000000_00000000#32 = .ok (.padu .w64 64) := by decide
theorem test_decode_pads : decode 0b0110_01_0000000000_00000101_00000000#32 = .ok (.pads .w16 5) := by decide
theorem test_decode_cwu : decode 0b0111_11_0000000000_00000000_00000000#32 = .ok (.cwu .w64) := by decide
theorem test_decode_cws : decode 0b1000_01_0000000000_00000000_00000000#32 = .ok (.cws .w16) := by decide
theorem test_decode_shru : decode 0b1001_00_0000000000_00001100_00000000#32 = .ok (.shru .w8 12) := by decide
theorem test_decode_shrs : decode 0b1010_11_0000000000_00000100_00000000#32 = .ok (.shrs .w64 4) := by decide

/-- Each condition of 30_encoding.md R45 rejects by its name (95_test_vectors.md 2.8). -/
theorem test_decode_rejects :
    decode 0x00000000#32 = .error .unassignedOp ∧ decode 0xB0000000#32 = .error .unassignedOp ∧
    decode 0x10010703#32 = .error .reservedNonzero ∧ decode 0x24000000#32 = .error .unusedCw ∧
    decode 0x20000100#32 = .error .unusedB ∧ decode 0x30000201#32 = .error .unusedC := by decide

/-- The opcode table's words, read through the fixed interface. -/
theorem test_decodeTableWord :
    decodeTableWord 32 0x10000703 = some (.bits .w8 7 3) ∧ decodeTableWord 32 0xB0000000 = none := by decide

/-! ## Well-formedness: an ill-formed term for each check -/

theorem test_wellFormed_refuses :
    Instr.wellFormed (.bits .w8 256 0) = false ∧ Instr.wellFormed (.bits .w8 7 256) = false ∧
    Instr.wellFormed (.decode 256) = false ∧ Instr.wellFormed (.encode 256) = false ∧
    Instr.wellFormed (.padu .w64 256) = false ∧ Instr.wellFormed (.pads .w64 256) = false ∧
    Instr.wellFormed (.shru .w64 256) = false ∧ Instr.wellFormed (.shrs .w64 256) = false := by decide

theorem test_wellFormed_accepts :
    Instr.wellFormed (.bits .w8 255 255) = true ∧ Instr.wellFormed (.encode 255) = true := by decide

/-! ## One step (spec/95_test_vectors.md) -/

/-- 2.4. -/
theorem test_bits_field : responseTo false 0x10000703#32 0xB5#64 = some ⟨0x16#64, 0x500#32⟩ := by decide
/-- 2.4, the whole 64-bit container. -/
theorem test_bits_whole :
    responseTo false 0x1C003F00#32 0xFFFFFFFFFFFFFFFF#64 = some ⟨0xFFFFFFFFFFFFFFFF#64, 0x4000#32⟩ := by decide
/-- 2.1, the corrected literal of 90_conflicts.md C1. -/
theorem test_calcw_class8 : responseTo false 0x20000000#32 0xABCD01#64 = some ⟨0x38#64, 0x3880#32⟩ := by decide
/-- 2.1, A[7:0] = 0 although A is not. -/
theorem test_calcw_zero_head : responseTo false 0x20000000#32 0xFF00#64 = some ⟨0#64, 2#32⟩ := by decide
/-- 2.2, the Unknown sentinel. -/
theorem test_decode_sentinel :
    responseTo false 0x30000800#32 0x01FFFFFFFFFFFFFF#64 = some ⟨0x00FFFFFFFFFFFFFF#64, 0x4088#32⟩ := by decide
/-- 2.2, class 4. -/
theorem test_decode_class4 :
    responseTo false 0x30000400#32 0x1A45DFA300000000#64 = some ⟨0xA45DFA3#64, 0x2040#32⟩ := by decide
/-- 2.3, a class forced by minWidth. -/
theorem test_encode_minWidth :
    responseTo false 0x40001800#32 0x12C#64 = some ⟨0x20012C0000000000#64, 0x1830#32⟩ := by decide
/-- 2.3, bottom of class 2. -/
theorem test_encode_class2 : responseTo false 0x40000000#32 0x80#64 = some ⟨0x4080000000000000#64, 0x1020#32⟩ := by decide
/-- 2.5, A[63:8] ignored. -/
theorem test_padu_whole_byte : responseTo false 0x50000800#32 0x1FF#64 = some ⟨0xFF#64, 0x800#32⟩ := by decide
/-- 2.5, w > cw. -/
theorem test_padu_too_wide : responseTo false 0x5C004100#32 5#64 = some ⟨0#64, 1#32⟩ := by decide
/-- 2.5, zero above the container. -/
theorem test_pads_negative : responseTo false 0x64000500#32 0x16#64 = some ⟨0xFFF6#64, 0x500#32⟩ := by decide
/-- 2.5, width 1. -/
theorem test_pads_width1 : responseTo false 0x60000100#32 1#64 = some ⟨0xFF#64, 0x100#32⟩ := by decide
/-- 2.6. -/
theorem test_cwu_minimal : responseTo false 0x7C000000#32 5#64 = some ⟨3#64, 0x300#32⟩ := by decide
/-- 2.6, REF = 1. -/
theorem test_cwu_reference :
    responseTo true 0x7C000000#32 0xFFFFFFFFFFFFFFFF#64 = some ⟨0x41#64, 0x4100#32⟩ := by decide
/-- 2.6, the most negative value. -/
theorem test_cws_minimal : responseTo false 0x8C000000#32 0x8000000000000000#64 = some ⟨0x40#64, 0x4000#32⟩ := by decide
/-- 2.6, REF = 1: the largest W. -/
theorem test_cws_reference : responseTo true 0x8C000000#32 0x8000000000000000#64 = some ⟨0x42#64, 0x4200#32⟩ := by decide
/-- 2.7, w > cw. -/
theorem test_shru_wide : responseTo false 0x90000C00#32 0xFF#64 = some ⟨0xFF#64, 0x800#32⟩ := by decide
/-- 2.7, REF = 1. -/
theorem test_shru_reference : responseTo true 0x9C000300#32 5#64 = some ⟨0#64, 5#32⟩ := by decide
/-- 2.7. -/
theorem test_shrs_negative : responseTo false 0xAC000300#32 0xFFFFFFFFFFFFFFFD#64 = some ⟨5#64, 0x300#32⟩ := by decide
/-- 2.7. -/
theorem test_shrs_does_not_fit : responseTo false 0xAC000400#32 0xFFFFFFFFFFFFFFF7#64 = some ⟨0#64, 5#32⟩ := by decide

/-- 2.8. -/
theorem test_illegal_request : responseTo false 0x10010703#32 0xB5#64 = some ⟨0#64, 6#32⟩ := by decide

/-- The fixed interface presents the request that the next step answers. -/
theorem test_withFetchWord :
    (State.reset.withFetchWord 32 0x10000703).requests = [{ cmd := 0x10000703#32, a := 0#64 }] := by decide

/-- 95_test_vectors.md 2.3 and 2.7, and 30_encoding.md R55: lines of text and their requests. -/
theorem test_assembleText :
    assembleText "encode 300 ; = encode 300, 0" = some ⟨0x40000000#32, 0x12C#64⟩ ∧
    assembleText "shrs.64 -9223372036854775808, 64" = some ⟨0xAC004000#32, 0x8000000000000000#64⟩ ∧
    assembleText "bits.8 0xB5, 256, 3" = none := by decide

/-- 70_reset_and_hazards.md R106 at PIPE_LATENCY = 1. -/
theorem test_clocked :
    (Pipeline.powerUp Config.default 1).run [some ⟨0x20000000#32, 0x80#64⟩, none] = [none, some ⟨7#64, 0x710#32⟩] := by decide

/-! ## Witnesses: the hypotheses of each statement can be met, with boundary values -/

/-- Any operand and any command word can be presented, under either REF. So the hypothesis on the requests is met beside each
of the hypotheses below, which name the operand; and it is the only one of CommandSelectsOneRowOrIsIllegal,
IllegalRequestExactly, StepIsRespond, ErrorResponseIsCodeOnly, InvalidArgumentExactly, InvalidEncodingExactly,
TruncatedInputExactly, ValueTooLargeExactly, DoesNotFitExactly, UnknownFlagExactly and ElementSizeIsNeverTheSentinel. -/
theorem test_witness_presented (ref : Bool) (cmd : Command) (a : Data) :
    (presented ref cmd a).requests = { cmd := cmd, a := a } :: [] ∧ (presented ref cmd a).config.refCompactWidth = ref :=
  ⟨rfl, rfl⟩

theorem test_witness_DecodeOfEncodeIsIdentity : Instr.wellFormed (.bits .w64 255 0) = true := by decide

theorem test_witness_EncodeOfDecodeIsIdentity : decode 0x10000703#32 = .ok (.bits .w8 7 3) := by decide

theorem test_witness_ContainerWidthOfSelect :
    (0 < 4 ∧ 3 < 4) ∧ decode 0x1C003F00#32 = .ok (.bits .w64 63 0) := by decide

theorem test_witness_AssemblerEncodesTheLine :
    ((-1 : Int) < 2 ^ 64 ∧ (2 ^ 64 - 1 : Int) < 2 ^ 64) ∧
      Instr.wellFormed (.decode 255) = true ∧ Instr.wellFormed (.decode 256) = false := by decide

theorem test_witness_StepRunsTheDecodedInstruction :
    (presented false 0x10000703#32 0xB5#64).requests = { cmd := 0x10000703#32, a := 0xB5#64 } :: [] ∧
      decode 0x10000703#32 = .ok (.bits .w8 7 3) := by decide

theorem test_witness_NoStepWithoutRequest : State.reset.requests = [] := by decide

/-- A legal response, so that the invariant is not met by the empty list alone. -/
theorem test_witness_ResponsesStayLegal :
    ∃ s t : State, s.Legal ∧ s.responses ≠ [] ∧ step s = .next t :=
  ⟨{ presented false 0x20000000#32 0x80#64 with responses := [⟨0x00FFFFFFFFFFFFFF#64, 0x4088#32⟩] }, _, by
    intro r hr
    obtain rfl := List.mem_singleton.1 hr
    exact ⟨by decide, by decide, by decide, by decide, by decide, by decide, by decide⟩, by decide, rfl⟩

theorem test_witness_ExecOnlyAnswersOneRequest : ∃ t : State, exec .calcw (presented false 0#32 0x80#64) = .next t :=
  ⟨_, rfl⟩

theorem test_witness_StatusFieldPositions : (66 < 256 ∧ 8 < 16) ∧ (255 < 256 ∧ 15 < 16) := by decide

/-- Two operands that differ in bits each form ignores, one form after another. -/
theorem test_witness_UnreadBitsOfAAreIgnored :
    (presented false 0#32 0x1B5#64).config = (presented false 1#32 0x2B5#64).config ∧
      (0x1B5#64).toNat % 2 ^ containerBits .w8 = (0x2B5#64).toNat % 2 ^ containerBits .w8 ∧
      (0x1B5#64).toNat % 256 = (0x2B5#64).toNat % 256 ∧
      (0x8100000000000000#64).toNat / 2 ^ (64 - 8 * 1) = (0x8142000000000000#64).toNat / 2 ^ (64 - 8 * 1) := by decide

/-- Each cause of an error on a boundary value. -/
theorem test_witness_error_causes :
    ((2 < 3) ∧ containerBits .w8 ≤ 8 ∧ 8 < 9 ∧ containerBits .w8 < 9 ∧ 64 < 65) ∧
      (0xFF00#64).toNat % 256 = 0 ∧ (0x00FF000000000000#64).toNat / 2 ^ 56 = 0 ∧
      (0 < (0x4000000000000000#64).toNat / 2 ^ 56 ∧ (0x4000000000000000#64).toNat / 2 ^ 56 < 2 ^ (8 - 1)) ∧
      (0 < (0x0100000000000000#64).toNat / 2 ^ 56 ∧ (0x0100000000000000#64).toNat / 2 ^ 56 < 2 ^ (8 - 7)) ∧
      2 ^ 56 ≤ (0x0100000000000000#64).toNat ∧ 64 < 65 ∧
      2 ^ 2 ≤ (4#64).toNat % 2 ^ containerBits .w64 ∧ 2 ^ (1 - 1) ≤ (1#64).toNat % 2 ^ containerBits .w64 ∧
      ((0xFFFFFFFFFFFFFFF7#64).setWidth (containerBits .w64)).toInt < -2 ^ (4 - 1) ∧
      2 ^ (4 - 1) ≤ ((8#64).setWidth (containerBits .w64)).toInt ∧
      2 ^ (4 - 2) ≤ ((4#64).setWidth (containerBits .w64)).toInt.natAbs := by decide

/-- BitsExtractsTheRange, BitsLaws: one bit, and the whole container. -/
theorem test_witness_BitsExtractsTheRange :
    (presented false 0#32 0xB5#64).requests = { cmd := 0#32, a := 0xB5#64 } :: [] ∧
      (0 ≤ 0 ∧ 0 < containerBits .w8) ∧ (0 ≤ 63 ∧ 63 < containerBits .w64) := by decide

/-- CalcwFindsTheMarker, CalcwRelations: the ends of the eight classes; DECODE of the same head byte succeeds. -/
theorem test_witness_CalcwFindsTheMarker :
    (presented false 0#32 0xFF#64).requests = { cmd := 0#32, a := 0xFF#64 } :: [] ∧
      (0xFF#64).toNat % 256 ≠ 0 ∧ (1#64).toNat % 256 ≠ 0 := by decide

theorem test_witness_CalcwRelations :
    (0x40#64).toNat % 256 ≠ 0 ∧ (0x4002000000000000#64).toNat / 2 ^ 56 = (0x40#64).toNat % 256 ∧
      (decodeResponse 2 0x4002000000000000#64).err = 0 := by decide

theorem test_witness_CalcwIsMonotone :
    (2 ^ 0 ≤ (1#64).toNat % 256 ∧ (1#64).toNat % 256 < 2 ^ (0 + 1)) ∧
      (2 ^ 7 ≤ (0xFF#64).toNat % 256 ∧ (0xFF#64).toNat % 256 < 2 ^ (7 + 1)) ∧ 0 < 7 := by decide

/-- Class 1 with len 8, and class 8 with the all-ones payload. -/
theorem test_witness_DecodeReadsTheVInt :
    (1 ≤ 1 ∧ 1 ≤ 8 ∧ 8 ≤ 8 ∧ 127 < 2 ^ (7 * 1) ∧
      (0xFF00000000000000#64).toNat / 2 ^ (64 - 8 * 1) = 2 ^ (7 * 1) + 127) ∧
      (1 ≤ 8 ∧ 8 ≤ 8 ∧ 2 ^ 56 - 1 < 2 ^ (7 * 8) ∧
        (0x01FFFFFFFFFFFFFF#64).toNat / 2 ^ (64 - 8 * 8) = 2 ^ (7 * 8) + (2 ^ 56 - 1)) := by decide

theorem test_witness_DecodeReadsOnlyItsBytes :
    (decodeResponse 8 0x4001000000000000#64).err = 0 ∧
      (0x4001000000000000#64).toNat / 2 ^ (64 - 8 * (decodeResponse 8 0x4001000000000000#64).n) =
        (0x4001FF0000000000#64).toNat / 2 ^ (64 - 8 * (decodeResponse 8 0x4001000000000000#64).n) := by decide

/-- EncodeUsesTheSmallestClass, EncodeIsShortest: the least and the greatest value and minimum width. -/
theorem test_witness_EncodeUsesTheSmallestClass :
    ((0#64).toNat < 2 ^ 56 ∧ 0 ≤ 64) ∧ ((0x00FFFFFFFFFFFFFF#64).toNat < 2 ^ 56 ∧ 64 ≤ 64) := by decide

theorem test_witness_EncodeIsShortest :
    (127#64).toNat < 2 ^ 7 ∧ 2 ^ (7 * (2 - 1)) ≤ (128#64).toNat ∧ (128#64).toNat < 2 ^ (7 * 2) ∧
      2 ^ (7 * (8 - 1)) ≤ (0x00FFFFFFFFFFFFFF#64).toNat ∧ (0x00FFFFFFFFFFFFFF#64).toNat < 2 ^ (7 * 8) := by decide

/-- The value 300 has least class 2; a second state holds the result. -/
theorem test_witness_VIntRoundTrip :
    (300#64).toNat < 2 ^ 56 ∧ 24 ≤ 64 ∧ 1 ≤ 2 ∧ (300#64).toNat < 2 ^ (7 * 2) ∧
      (∀ m, 1 ≤ m → (300#64).toNat < 2 ^ (7 * m) → 2 ≤ m) ∧
      (presented false 0#32 0x20012C0000000000#64).requests =
        { cmd := 0#32, a := (encodeResponse 24 300#64).result } :: [] := by
  refine ⟨by decide, by decide, by decide, by decide, fun m h1 h => ?_, by decide⟩
  by_contra hm
  obtain rfl : m = 1 := by omega
  exact absurd h (by decide)

theorem test_witness_EncodeEmitsTheSentinel :
    (presented false 0#32 0x00FFFFFFFFFFFFFF#64).requests = { cmd := 0#32, a := 0x00FFFFFFFFFFFFFF#64 } :: [] ∧
      (encodeResponse 0 0x00FFFFFFFFFFFFFF#64).result = 0x01FFFFFFFFFFFFFF#64 := by decide

/-- PaduZeroExtends, PadsSignExtends, PaddingLaws: width 1, and the whole container. -/
theorem test_witness_PadsSignExtends :
    (presented false 0#32 1#64).requests = { cmd := 0#32, a := 1#64 } :: [] ∧
      (1 ≤ 1 ∧ 1 ≤ containerBits .w8) ∧ (1 ≤ 64 ∧ 64 ≤ containerBits .w64) := by decide

/-- CwuIsMinimal, CwsIsMinimal (REF = 0) and ReferenceCompactWidths (REF = 1). -/
theorem test_witness_compact_widths :
    (presented false 0#32 0#64).config.refCompactWidth = false ∧
      (presented true 0#32 0#64).config.refCompactWidth = true ∧
      (presented true 0#32 0#64).requests = { cmd := 0#32, a := 0#64 } :: [] := by decide

theorem test_witness_ShruPacksWhatFits :
    (presented false 0#32 15#64).config.refCompactWidth = false ∧ 1 ≤ 4 ∧ 4 ≤ 64 ∧
      (15#64).toNat % 2 ^ containerBits .w64 < 2 ^ 4 := by decide

/-- The least and the greatest value of a 4-bit field. -/
theorem test_witness_ShrsPacksWhatFits :
    (presented false 0#32 7#64).config.refCompactWidth = false ∧ 1 ≤ 4 ∧ 4 ≤ 64 ∧
      (((0xFFFFFFFFFFFFFFF8#64).setWidth (containerBits .w64)).toInt ≤ 2 ^ (4 - 1) - 1 ∧
        -2 ^ (4 - 1) ≤ ((0xFFFFFFFFFFFFFFF8#64).setWidth (containerBits .w64)).toInt) ∧
      ((7#64).setWidth (containerBits .w64)).toInt ≤ 2 ^ (4 - 1) - 1 ∧
        -2 ^ (4 - 1) ≤ ((7#64).setWidth (containerBits .w64)).toInt := by decide

theorem test_witness_UnsignedRoundTrip :
    (presented false 0#32 15#64).config.refCompactWidth = false ∧ 1 ≤ 4 ∧ 4 ≤ 64 ∧ 15 ≤ 2 ^ 4 - 1 ∧
      15#64 = BitVec.ofNat 64 15 ∧ (shruResponse false 64 4 15#64).result = 15#64 := by decide

theorem test_witness_SignedRoundTrip :
    (presented false 0#32 0#64).config.refCompactWidth = false ∧ 1 ≤ 1 ∧ 1 ≤ 64 ∧
      (-2 ^ (1 - 1) ≤ (-1 : Int) ∧ (-1 : Int) ≤ 2 ^ (1 - 1) - 1) ∧
      0xFFFFFFFFFFFFFFFF#64 = BitVec.ofInt 64 (-1) ∧ (shrsResponse false 64 1 0xFFFFFFFFFFFFFFFF#64).result = 1#64 := by decide

/-- REF = 1: values at which both operations succeed, so that the recovering clauses are met. -/
theorem test_witness_ReferenceModePacking :
    (presented true 0#32 3#64).config.refCompactWidth = true ∧ 1 ≤ 4 ∧ 4 ≤ 64 ∧
      (shruResponse true 64 4 3#64).err = 0 ∧ (shrsResponse true 64 4 3#64).err = 0 := by decide

theorem test_witness_StreamWalkReadsEveryValue :
    ∀ p ∈ [(0, 0), (2 ^ 56 - 1, 64), (300, 24)], p.1 < 2 ^ 56 ∧ p.2 ≤ 64 := by decide

end Sys2Proof.Tests
end

section
/-! PROOFS, 10_state.md: every operation ends in an error or in a success with its fields in range, a step answers with
`respond` of its request, and a run answers request after request. -/

namespace Sys2Proof.Machine

/-! ## The operation of an instruction -/

/-- The operation an instruction answers with, a function of REF_COMPACT_WIDTH and A; tied to the model by
`exec_eq_answer_operation`. -/
def operation : Instr → Bool → Data → Response
  | .bits cw hi lo, _, a => bitsResponse (containerBits cw) hi lo a
  | .calcw, _, a => calcwResponse a
  | .decode len, _, a => decodeResponse len a
  | .encode minWidth, _, a => encodeResponse minWidth a
  | .padu cw w, _, a => paduResponse (containerBits cw) w a
  | .pads cw w, _, a => padsResponse (containerBits cw) w a
  | .cwu cw, ref, a => cwuResponse ref (containerBits cw) a
  | .cws cw, ref, a => cwsResponse ref (containerBits cw) a
  | .shru cw w, ref, a => shruResponse ref (containerBits cw) w a
  | .shrs cw w, ref, a => shrsResponse ref (containerBits cw) w a

theorem exec_eq_answer_operation (i : Instr) (s : State) : exec i s = s.answer (operation i) := by
  cases i <;> rfl

theorem exec_of_request {s : State} {req : Request} {rest : List Request} (h : s.requests = req :: rest) (i : Instr) :
    exec i s = .next (s.answered rest (operation i s.config.refCompactWidth req.a)) := by
  rw [exec_eq_answer_operation, State.answer_of_request h]

/-! ## The fields of CMD, as `respond` slices them -/

theorem slice_op (c : Command) : slice c.toNat 31 28 = Command.op c := by
  rw [slice_eq_div_mod, Command.op_eq]
  have := c.isLt
  omega

theorem slice_cw (c : Command) : slice c.toNat 27 26 = Command.cw c := by
  simp [slice_eq_div_mod, Command.cw_eq]

theorem slice_rsv (c : Command) : slice c.toNat 25 16 = Command.rsv c := by
  simp [slice_eq_div_mod, Command.rsv_eq]

theorem slice_b (c : Command) : slice c.toNat 15 8 = Command.b c := by
  simp [slice_eq_div_mod, Command.b_eq]

theorem slice_c (c : Command) : slice c.toNat 7 0 = Command.c c := by
  simp [slice_eq_div_mod, Command.c_eq]

/-! ## The step answers with `respond` of the oldest request (10_state.md R29, 30_encoding.md R51) -/

theorem respond_of_decode_ok {c : Command} {i : Instr} (h : decode c = .ok i) (ref : Bool) (a : Data) :
    respond ref c a = operation i ref a := by
  have hcw := containerBits_ofSelect (Command.cw_lt c)
  obtain ⟨hrsv, hrow⟩ := decode_ok_cases h
  unfold respond
  rw [slice_op, slice_cw, slice_rsv, slice_b, slice_c]
  -- Each row of the opcode table passes the checks of R45, and `respond` takes the arm of the row's operation.
  rcases hrow with ⟨hop, rfl⟩ | ⟨hop, rfl, h0⟩ | ⟨hop, rfl, h0⟩ | ⟨hop, rfl, h0⟩ | ⟨hop, rfl, h0⟩ | ⟨hop, rfl, h0⟩ |
    ⟨hop, rfl, h0⟩ | ⟨hop, rfl, h0⟩ | ⟨hop, rfl, h0⟩ | ⟨hop, rfl, h0⟩ <;> simp [operation, *]

theorem respond_of_decode_error {c : Command} {why : Rejection} (h : decode c = .error why) (ref : Bool) (a : Data) :
    respond ref c a = Response.raise .illegalRequest := by
  have hcause := decode_error_cases h
  unfold respond
  rw [slice_op, slice_cw, slice_rsv, slice_b, slice_c]
  dsimp only
  split_ifs with hop hcw hb hc
  · rfl
  · rfl
  · rfl
  · rfl
  · omega

theorem step_of_decode_ok {s : State} {req : Request} {rest : List Request} {i : Instr}
    (h : s.requests = req :: rest) (hd : decode req.cmd = .ok i) : step s = exec i s := by
  simp [step, State.fetch_of_request h, hd]

theorem step_of_no_request {s : State} (h : s.requests = []) : step s = .fault .noRequest := by
  simp [step, State.fetch, h]

theorem step_of_request {s : State} {req : Request} {rest : List Request} (h : s.requests = req :: rest) :
    step s = .next (s.answered rest (req.response s.config)) := by
  cases hd : decode req.cmd with
  | ok i => rw [step_of_decode_ok h hd, exec_of_request h, Request.response, respond_of_decode_ok hd]
  | error why => rw [step_of_illegal h hd, Request.response, respond_of_decode_error hd]

/-- If the step goes on, it answered the oldest request with `respond` and did nothing else. -/
theorem step_next_cases {s t : State} (h : step s = .next t) :
    ∃ req rest, s.requests = req :: rest ∧ t = s.answered rest (req.response s.config) := by
  match hs : s.requests with
  | [] => simp [step_of_no_request hs] at h
  | req :: rest =>
    rw [step_of_request hs] at h
    injection h with h
    exact ⟨req, rest, rfl, h.symm⟩

/-! ## The widths an operation writes (10_state.md R25) -/

theorem containerUint_lt (cw : ContainerWidth) (a : Data) : containerUint (containerBits cw) a < 2 ^ containerBits cw := by
  rw [containerUint_eq_mod (containerBits_pos cw)]
  exact Nat.mod_lt _ (Nat.two_pow_pos _)

theorem containerSint_natAbs_le (cw : ContainerWidth) (a : Data) :
    (containerSint (containerBits cw) a).natAbs ≤ 2 ^ (containerBits cw - 1) := by
  rw [containerSint_eq_toInt (containerBits_pos cw)]
  have hlo := BitVec.le_toInt (a.setWidth (containerBits cw))
  have hhi := BitVec.toInt_lt (x := a.setWidth (containerBits cw))
  have hp : ((2 ^ (containerBits cw - 1) : Nat) : Int) = 2 ^ (containerBits cw - 1) := by push_cast; rfl
  omega

/-- CWU's width is at most 65, the reference's width of a full 64-bit value. -/
theorem compactUnsigned_container_le (ref : Bool) (cw : ContainerWidth) (a : Data) :
    compactUnsigned ref (containerUint (containerBits cw) a) ≤ 65 := by
  have hcw := containerBits_le cw
  have hlen := (bitlen_le_iff _ _).2 (containerUint_lt cw a)
  unfold compactUnsigned
  split_ifs <;> omega

/-- CWS's width is at most 66, the reference's width of -2^63 (10_state.md R25). -/
theorem compactSigned_container_le (ref : Bool) (cw : ContainerWidth) (a : Data) :
    compactSigned ref (containerSint (containerBits cw) a) ≤ 66 := by
  have habs : (containerSint (containerBits cw) a).natAbs ≤ 2 ^ 63 :=
    (containerSint_natAbs_le cw a).trans (Nat.pow_le_pow_right (by decide) (by have := containerBits_le cw; omega))
  cases ref with
  | false => exact (compactSigned_minimal_le_iff (by decide) _).2 (by omega)
  | true => exact (compactSigned_reference_le_iff (by decide) _).2 (by omega)

/-! ## How an operation can end -/

/-- The endings every operation has: an error, or a success with W and N in range and UNK = 0. Only the Unknown sentinel
ends otherwise (`operation_plain`, `decodeResponse_sentinel`). -/
inductive Response.Plain : Response → Prop where
  | raise (e : ErrorCause) : Response.Plain (Response.raise e)
  | ok (res : Nat) {w n : Nat} (hpos : 1 ≤ w) (hw : w ≤ 66) (hn : n ≤ 8) : Response.Plain (Response.ok res w n false)

theorem bitsResponse_plain (cw : ContainerWidth) (hi lo : Nat) (a : Data) :
    (bitsResponse (containerBits cw) hi lo a).Plain := by
  have hcw := containerBits_le cw
  unfold bitsResponse
  split_ifs with h
  · exact .ok _ (by omega) (by omega) (by decide)
  · exact .raise _

theorem paduResponse_plain (cw : ContainerWidth) (w : Nat) (a : Data) : (paduResponse (containerBits cw) w a).Plain := by
  have hcw := containerBits_le cw
  unfold paduResponse
  split_ifs with h
  · exact .raise _
  · exact .ok _ (by omega) (by omega) (by decide)

theorem padsResponse_plain (cw : ContainerWidth) (w : Nat) (a : Data) : (padsResponse (containerBits cw) w a).Plain := by
  have hcw := containerBits_le cw
  unfold padsResponse
  split_ifs with h
  · exact .raise _
  · exact .ok _ (by omega) (by omega) (by decide)

theorem cwuResponse_plain (ref : Bool) (cw : ContainerWidth) (a : Data) : (cwuResponse ref (containerBits cw) a).Plain :=
  .ok _ (compactUnsigned_pos ref _) ((compactUnsigned_container_le ref cw a).trans (by decide)) (by decide)

theorem cwsResponse_plain (ref : Bool) (cw : ContainerWidth) (a : Data) : (cwsResponse ref (containerBits cw) a).Plain :=
  .ok _ (compactSigned_pos ref _) (compactSigned_container_le ref cw a) (by decide)

theorem shruResponse_plain (ref : Bool) (cw : ContainerWidth) (w : Nat) (a : Data) :
    (shruResponse ref (containerBits cw) w a).Plain := by
  unfold shruResponse
  dsimp only
  split_ifs with hw hfit
  · exact .raise _
  · exact .raise _
  · exact .ok _ (compactUnsigned_pos ref _) (by omega) (by decide)

theorem shrsResponse_plain (ref : Bool) (cw : ContainerWidth) (w : Nat) (a : Data) :
    (shrsResponse ref (containerBits cw) w a).Plain := by
  unfold shrsResponse
  dsimp only
  split_ifs with hw hfit
  · exact .raise _
  · exact .raise _
  · exact .ok _ (compactSigned_pos ref _) (by omega) (by decide)

theorem calcwResponse_plain (a : Data) : (calcwResponse a).Plain := by
  unfold calcwResponse
  dsimp only
  split_ifs with h0
  · exact .raise _
  · obtain ⟨hpos, hle, -, -⟩ := markerWidth_spec h0 (by rw [headByte_eq_mod]; omega)
    have hi : markerIndex (headByte a) + 1 ≤ 8 := hle
    exact .ok _ (by omega) (by omega) hle

theorem encodeResponse_plain (minWidth : Nat) (a : Data) : (encodeResponse minWidth a).Plain := by
  unfold encodeResponse
  dsimp only
  split
  · exact .raise _
  · next n hn =>
    obtain ⟨⟨hpos, hle, -, -⟩, -⟩ := (smallestClass_eq_some_iff _ _ _).1 hn
    exact .ok _ (by omega) (by omega) hle

/-- A VInt read as the Unknown sentinel is the bytes 0x01 and seven 0xFF: its marker is in the last place of the head byte
and its 56 payload bits are 1 (43_vint_codec.md R67). -/
theorem eq_sentinel_of_isUnknown {a : Data} (h0 : packedByte a 0 ≠ 0)
    (h : isUnknown (markerWidth (packedByte a 0)) (vintValue (markerWidth (packedByte a 0)) a) = true) :
    markerWidth (packedByte a 0) = 8 ∧ a = 0x01FFFFFFFFFFFFFF#64 := by
  obtain ⟨hn, hv⟩ := of_decide_eq_true h
  obtain ⟨-, -, lo, hi⟩ := markerWidth_spec h0 (by rw [packedByte_zero]; omega)
  rw [hn, vintValue_eq a (by decide) (by decide)] at hv
  rw [hn, packedByte_zero] at lo hi
  simp only [maxVIntBytes] at hv lo hi
  exact ⟨hn, by bv_omega⟩

theorem decodeResponse_plain {len : Nat} {a : Data} (h : ¬(len = 8 ∧ a = 0x01FFFFFFFFFFFFFF#64)) :
    (decodeResponse len a).Plain := by
  unfold decodeResponse
  dsimp only
  split_ifs with hlen h0 hshort
  · exact .raise _
  · exact .raise _
  · exact .raise _
  · obtain ⟨hpos, hle, -, -⟩ := markerWidth_spec h0 (by rw [packedByte_zero]; omega)
    cases hu : isUnknown (markerWidth (packedByte a 0)) (vintValue (markerWidth (packedByte a 0)) a) with
    | false => exact .ok _ (by omega) (by omega) hle
    | true =>
      obtain ⟨hn, ha⟩ := eq_sentinel_of_isUnknown h0 hu
      simp only [maxVIntBytes] at hlen
      exact absurd ⟨by omega, ha⟩ h

theorem decodeResponse_sentinel :
    decodeResponse 8 0x01FFFFFFFFFFFFFF#64 = Response.ok (2 ^ 56 - 1) 64 8 true := by
  decide

/-- Every operation on every operand ends plainly, but for DECODE of the Unknown sentinel. -/
theorem operation_plain {i : Instr} {a : Data} (h : ¬(i = .decode 8 ∧ a = 0x01FFFFFFFFFFFFFF#64)) (ref : Bool) :
    (operation i ref a).Plain := by
  cases i with
  | bits cw hi lo => exact bitsResponse_plain cw hi lo a
  | calcw => exact calcwResponse_plain a
  | decode len => exact decodeResponse_plain (by simpa using h)
  | encode minWidth => exact encodeResponse_plain minWidth a
  | padu cw w => exact paduResponse_plain cw w a
  | pads cw w => exact padsResponse_plain cw w a
  | cwu cw => exact cwuResponse_plain ref cw a
  | cws cw => exact cwsResponse_plain ref cw a
  | shru cw w => exact shruResponse_plain ref cw w a
  | shrs cw w => exact shrsResponse_plain ref cw w a

theorem Response.Plain.unk_eq_false {r : Response} (h : r.Plain) : r.unk = false := by
  cases h with
  | raise e => exact Response.raise_unk e
  | ok res hpos hw hn => exact Response.ok_unk (by omega) (by omega) res false

/-! ## Every response is legal (10_state.md R25 to R27) -/

theorem Response.raise_legal (e : ErrorCause) : (Response.raise e).Legal where
  err_le := by simpa using e.code_le
  n_le := by simp
  w_le := by simp
  upper_zero := by
    have := e.code_le
    rw [Response.raise_status, errorStatus_toNat]
    omega
  error_outputs _ := by rw [Response.raise_err]; exact Response.raise_fails e
  success_width h := by
    have := e.code_pos
    rw [Response.raise_err] at h
    omega
  unknown h := by simp at h

theorem Response.ok_legal {res w n : Nat} {u : Bool} (hpos : 1 ≤ w) (hw : w ≤ 66) (hn : n ≤ 8)
    (hu : u = true → n = 8 ∧ w = 64 ∧ BitVec.ofNat 64 res = 0x00FFFFFFFFFFFFFF#64) : (Response.ok res w n u).Legal where
  err_le := by simp
  n_le := by rwa [Response.ok_n (by omega) (by omega)]
  w_le := by rwa [Response.ok_w (by omega) (by omega)]
  upper_zero := by
    rw [Response.ok_status, successStatus_toNat (by omega) (by omega)]
    split <;> omega
  error_outputs h := absurd (Response.ok_err res w n u) h
  success_width _ := by rwa [Response.ok_w (by omega) (by omega)]
  unknown h := by
    rw [Response.ok_unk (by omega) (by omega)] at h
    rw [Response.ok_n (by omega) (by omega), Response.ok_w (by omega) (by omega)]
    exact ⟨Response.ok_err res w n u, hu h⟩

theorem Response.Plain.legal {r : Response} (h : r.Plain) : r.Legal := by
  cases h with
  | raise e => exact Response.raise_legal e
  | ok res hpos hw hn => exact Response.ok_legal hpos hw hn (by simp)

theorem operation_legal (i : Instr) (ref : Bool) (a : Data) : (operation i ref a).Legal := by
  by_cases h : i = .decode 8 ∧ a = 0x01FFFFFFFFFFFFFF#64
  · obtain ⟨rfl, rfl⟩ := h
    rw [operation, decodeResponse_sentinel]
    exact Response.ok_legal (by decide) (by decide) (by decide) (by decide)
  · exact (operation_plain h ref).legal

theorem respond_legal (ref : Bool) (c : Command) (a : Data) : (respond ref c a).Legal := by
  cases hd : decode c with
  | ok i => rw [respond_of_decode_ok hd]; exact operation_legal i ref a
  | error why => rw [respond_of_decode_error hd]; exact Response.raise_legal _

theorem State.Legal.answered {s : State} (hs : s.Legal) {r : Response} (hr : r.Legal) (rest : List Request) :
    (s.answered rest r).Legal := by
  intro r' hmem
  rw [State.answered_responses, List.mem_append, List.mem_singleton] at hmem
  rcases hmem with hold | rfl
  · exact hs r' hold
  · exact hr

/-- Settles O14: the step adds `respond` of a request to the responses, and every such response is legal. -/
theorem responsesStayLegal : Obligations.ResponsesStayLegal := by
  intro s t hs hstep
  obtain ⟨req, rest, -, rfl⟩ := step_next_cases hstep
  exact hs.answered (respond_legal _ _ _) rest

/-! ## The run (10_state.md R29) -/

theorem run_succ_of_next {M : Host.Core} {s t : M.State} (h : M.step s = .next t) (k : Nat) :
    M.run (k + 1) s = M.run k t := by
  simp only [Host.Core.run, h]

theorem core_run_of_request {s : State} {req : Request} {rest : List Request} (h : s.requests = req :: rest) (k : Nat) :
    Host.Core.run Sys2Proof.core (k + 1) s =
      Host.Core.run Sys2Proof.core k (s.answered rest (req.response s.config)) :=
  run_succ_of_next (M := Sys2Proof.core) (step_of_request h) k

/-- Settles O10, by induction on the requests presented. -/
theorem runAnswersEveryRequestInOrder : Obligations.RunAnswersEveryRequestInOrder := by
  intro s
  obtain ⟨config, requests, responses⟩ := s
  induction requests generalizing responses with
  | nil => simp [Host.Core.run]
  | cons req rest ih =>
    have hrun := ih (responses ++ [req.response config])
    rw [List.append_assoc] at hrun
    exact (core_run_of_request rfl rest.length).trans hrun

/-! ## The UNK flag (10_state.md R26) -/

/-- Settles O31: DECODE of the sentinel sets UNK, and every other ending is plain. -/
theorem unknownFlagExactly : Obligations.UnknownFlagExactly := by
  intro i s req rest h
  refine ⟨_, exec_of_request h i, ?_⟩
  by_cases hsent : i = .decode 8 ∧ req.a = 0x01FFFFFFFFFFFFFF#64
  · have hr : operation i s.config.refCompactWidth req.a = Response.ok (2 ^ 56 - 1) 64 8 true := by
      rw [hsent.1, hsent.2, operation, decodeResponse_sentinel]
    have hok := Response.ok_unk (w := 64) (n := 8) (by decide) (by decide) (2 ^ 56 - 1) true
    rw [hr]
    exact ⟨iff_of_true hok hsent, fun _ => Response.ok_succeeds (by decide) (by decide) (by decide) true⟩
  · have hunk := (operation_plain hsent s.config.refCompactWidth).unk_eq_false
    simp [hunk, hsent]

/-! ## The step and the fields of STATUS (10_state.md R22, R25) -/

/-- Settles O8. -/
theorem stepRunsTheDecodedInstruction : Obligations.StepRunsTheDecodedInstruction :=
  fun _ _ _ _ h hd => step_of_decode_ok h hd

/-- Settles O17, from the fields of each ending. -/
theorem statusFieldPositions : Obligations.StatusFieldPositions := by
  refine ⟨fun res w n u hw hn => ⟨?_, Response.ok_err res w n u, Response.ok_unk hw hn res u, Response.ok_n hw hn res u,
    Response.ok_w hw hn res u⟩, fun e => ⟨?_, Response.raise_err e⟩⟩
  · exact ⟨BitVec.toNat_ofNat res 64, successStatus_toNat hw hn u⟩
  · rw [Response.raise_err]
    exact Response.raise_fails e

end Sys2Proof.Machine
end

section
/-! PROOFS, 20_memory.md: every operation answers one request and changes nothing else (R39), and the packed byte order of
DECODE and ENCODE (R35, R36) lets a host walk a stream of encodings. -/

namespace Sys2Proof.Machine

/-! ## The frame of every operation (20_memory.md R39) -/

/-- Settles O15: every operation is an answer, and answering does nothing else. -/
theorem execOnlyAnswersOneRequest : Obligations.ExecOnlyAnswersOneRequest := by
  intro i s t h
  rw [exec_eq_answer_operation] at h
  obtain ⟨req, rest, hreq, ht⟩ := State.answer_next_cases h
  exact ⟨req, rest, _, hreq, ht⟩

/-! ## Packed byte sequences (20_memory.md R35, R36) -/

/-- The first k bytes of a stream as one big-endian number, a place past the end counting as 0; tied to the model by
`packBytes_toNat`. -/
def bigEndian (bytes : List Byte) (k : Nat) : Nat :=
  (List.range k).foldl (fun v j => v * 256 + (bytes.getD j 0#8).toNat) 0

@[simp] theorem bigEndian_zero (bytes : List Byte) : bigEndian bytes 0 = 0 := rfl

theorem bigEndian_succ (bytes : List Byte) (k : Nat) :
    bigEndian bytes (k + 1) = bigEndian bytes k * 256 + (bytes.getD k 0#8).toNat := by
  simp [bigEndian, List.range_succ]

theorem bigEndian_lt (bytes : List Byte) (k : Nat) : bigEndian bytes k < 256 ^ k := by
  induction k with
  | zero => simp
  | succ k ih =>
    have hbyte := (bytes.getD k 0#8).isLt
    rw [bigEndian_succ, Nat.pow_succ]
    omega

theorem packBytes_toNat (bytes : List Byte) : (packBytes bytes).toNat = bigEndian bytes 8 := by
  rw [packBytes, BitVec.toNat_ofNat]
  exact Nat.mod_eq_of_lt (bigEndian_lt bytes 8)

/-- Dropping the last m bytes of a big-endian number. -/
theorem bigEndian_add_div (bytes : List Byte) (k m : Nat) : bigEndian bytes (k + m) / 256 ^ m = bigEndian bytes k := by
  induction m with
  | zero => simp
  | succ m ih =>
    have hbyte := (bytes.getD (k + m) 0#8).isLt
    have hlast : bigEndian bytes (k + (m + 1)) / 256 = bigEndian bytes (k + m) := by
      rw [← Nat.add_assoc, bigEndian_succ]
      omega
    rw [Nat.pow_succ', ← Nat.div_div_eq_div_mul, hlast, ih]

theorem packBytes_div (bytes : List Byte) {k : Nat} (hk : k ≤ 8) :
    (packBytes bytes).toNat / 2 ^ (64 - 8 * k) = bigEndian bytes k := by
  have hdiv := bigEndian_add_div bytes k (8 - k)
  rwa [Nat.add_sub_cancel' hk, show 256 = 2 ^ 8 from rfl, ← Nat.pow_mul, Nat.mul_sub, ← packBytes_toNat] at hdiv

/-- The first k + 1 bytes of A are its first k bytes and byte k. -/
theorem div_eq_append_packedByte (a : Data) {k : Nat} (hk : k < 8) :
    a.toNat / 2 ^ (64 - 8 * (k + 1)) = a.toNat / 2 ^ (64 - 8 * k) * 256 + packedByte a k := by
  rw [packedByte_eq a hk, show 64 - 8 * k = 56 - 8 * k + 8 by omega, Nat.pow_add, ← Nat.div_div_eq_div_mul,
    show 64 - 8 * (k + 1) = 56 - 8 * k by omega]
  omega

@[simp] theorem unpackBytes_length (n : Nat) (a : Data) : (unpackBytes n a).length = n := by
  simp [unpackBytes]

theorem unpackBytes_append_getD (a : Data) (rest : List Byte) {n k : Nat} (hk : k < n) (hn : n ≤ 8) :
    ((unpackBytes n a ++ rest).getD k 0#8).toNat = packedByte a k := by
  have hbyte : packedByte a k < 256 := by
    rw [packedByte_eq a (by omega)]
    exact Nat.mod_lt _ (by decide)
  rw [List.getD_append _ _ _ _ (by simpa using hk)]
  simp [unpackBytes, hk, Nat.mod_eq_of_lt hbyte]

/-- The bytes of A are A's own first bytes, whatever follows them in the stream. -/
theorem bigEndian_unpackBytes_append (a : Data) (rest : List Byte) {n : Nat} (hn : n ≤ 8) {k : Nat} (hk : k ≤ n) :
    bigEndian (unpackBytes n a ++ rest) k = a.toNat / 2 ^ (64 - 8 * k) := by
  induction k with
  | zero => simpa using (Nat.div_eq_of_lt a.isLt).symm
  | succ k ih =>
    rw [bigEndian_succ, ih (by omega), unpackBytes_append_getD a rest hk hn, div_eq_append_packedByte a (by omega)]

/-- Unpacking the first n bytes of A and packing them again, with any bytes behind, gives back A's first n bytes (R36). -/
theorem packBytes_unpackBytes_append (a : Data) (rest : List Byte) {n : Nat} (hn : n ≤ 8) :
    (packBytes (unpackBytes n a ++ rest)).toNat / 2 ^ (64 - 8 * n) = a.toNat / 2 ^ (64 - 8 * n) := by
  rw [packBytes_div _ hn, bigEndian_unpackBytes_append a rest hn le_rfl]

/-! ## One encoding (43_vint_codec.md R61, R63, R66) -/

/-- The data word that ENCODE answers with for v in class n: the encoding in its first n bytes, and 0 behind; tied to the model
by `encodeRequest_bytes`. -/
def vintData (n v : Nat) : Data := BitVec.ofNat 64 (vintWord n v <<< (64 - 8 * n))

theorem vintWord_lt {n v : Nat} (h1 : 1 ≤ n) (hv : v < 2 ^ (7 * n)) : vintWord n v < 2 ^ (8 * n) := by
  have hpow : 2 ^ (7 * n + 1) ≤ 2 ^ (8 * n) := Nat.pow_le_pow_right (by decide) (by omega)
  rw [Nat.pow_succ] at hpow
  rw [vintWord]
  omega

/-- The head byte of an encoding holds its marker (43_vint_codec.md R61). -/
theorem packedByte_zero_bounds {a : Data} {n v : Nat} (h1 : 1 ≤ n) (h8 : n ≤ 8) (hv : v < 2 ^ (7 * n))
    (ha : a.toNat / 2 ^ (64 - 8 * n) = vintWord n v) : 2 ^ (8 - n) ≤ packedByte a 0 ∧ packedByte a 0 < 2 ^ (9 - n) := by
  have hhead : packedByte a 0 = vintWord n v / 2 ^ (8 * n - 8) := by
    rw [packedByte_zero, ← ha, Nat.div_div_eq_div_mul, ← Nat.pow_add, show 64 - 8 * n + (8 * n - 8) = 56 by omega]
  have hlo : 2 ^ (8 - n) * 2 ^ (8 * n - 8) = 2 ^ (7 * n) := by rw [← Nat.pow_add]; congr 1; omega
  have hhi : 2 ^ (9 - n) * 2 ^ (8 * n - 8) = 2 ^ (7 * n) * 2 := by rw [← Nat.pow_add, ← Nat.pow_succ]; congr 1; omega
  rw [hhead, Nat.le_div_iff_mul_le (Nat.two_pow_pos _), Nat.div_lt_iff_lt_mul (Nat.two_pow_pos _), hlo, hhi, vintWord]
  omega

/-- DECODE of an operand that begins with the encoding of v in class n, whatever follows it (43_vint_codec.md R63 to R65). -/
theorem decodeResponse_of_vintWord {a : Data} {len n v : Nat} (h1 : 1 ≤ n) (hn : n ≤ len) (hlen : len ≤ 8)
    (hv : v < 2 ^ (7 * n)) (ha : a.toNat / 2 ^ (64 - 8 * n) = vintWord n v) :
    decodeResponse len a = Response.ok v (8 * n) n (isUnknown n v) := by
  obtain ⟨hlo, hhi⟩ := packedByte_zero_bounds h1 (by omega) hv ha
  have hhead : packedByte a 0 ≠ 0 := (Nat.lt_of_lt_of_le (Nat.two_pow_pos _) hlo).ne'
  have hmarker : markerWidth (packedByte a 0) = n := markerWidth_eq_of_bounds h1 (by omega) hlo hhi
  have hvalue : vintValue n a = v := by
    rw [vintValue_eq a h1 (by omega), ha, vintWord, Nat.add_mod_left, Nat.mod_eq_of_lt hv]
  have hbus : ¬(len = 0 ∨ len > maxVIntBytes) := by rw [maxVIntBytes]; omega
  simp only [decodeResponse, if_neg hbus, if_neg hhead, hmarker, if_neg (Nat.not_lt.2 hn), hvalue]

/-- ENCODE of a value below 2^56 with a minimum width up to 64 succeeds in some class that holds the value. -/
theorem encodeResponse_eq_ok {a : Data} {minWidth : Nat} (hv : a.toNat < 2 ^ 56) (hw : minWidth ≤ 64) :
    ∃ n, 1 ≤ n ∧ n ≤ 8 ∧ a.toNat < 2 ^ (7 * n) ∧
      encodeResponse minWidth a = Response.ok (vintWord n a.toNat <<< (64 - 8 * n)) (8 * n) n false := by
  cases hclass : smallestClass a.toNat minWidth with
  | none =>
    have := (smallestClass_eq_none_iff _ _).1 hclass
    omega
  | some n =>
    obtain ⟨⟨h1, h8, hfit, -⟩, -⟩ := (smallestClass_eq_some_iff _ _ _).1 hclass
    exact ⟨n, h1, h8, hfit, by simp only [encodeResponse, hclass]⟩

/-- The result of ENCODE begins with the encoding: it loses no bit of it above bit 63. -/
theorem vintData_div {n v : Nat} (h1 : 1 ≤ n) (h8 : n ≤ 8) (hv : v < 2 ^ (7 * n)) :
    (vintData n v).toNat / 2 ^ (64 - 8 * n) = vintWord n v := by
  have hfit : vintWord n v * 2 ^ (64 - 8 * n) < 2 ^ 64 := by
    calc vintWord n v * 2 ^ (64 - 8 * n)
      _ < 2 ^ (8 * n) * 2 ^ (64 - 8 * n) := Nat.mul_lt_mul_of_pos_right (vintWord_lt h1 hv) (Nat.two_pow_pos _)
      _ = 2 ^ 64 := by rw [← Nat.pow_add]; congr 1; omega
  rw [vintData, BitVec.toNat_ofNat, Nat.shiftLeft_eq, Nat.mod_eq_of_lt hfit, Nat.mul_div_cancel _ (Nat.two_pow_pos _)]

/-! ## The requests of a host (70_reset_and_hazards.md R102) -/

theorem fitsField_iff (k : Nat) : fitsField k = true ↔ k < 256 := decide_eq_true_iff

/-- The decoder reads back the command word of every instruction that can be encoded (30_encoding.md R42 to R44). -/
theorem decode_encode {i : Instr} (h : i.wellFormed = true) : decode (encode i) = .ok i := by
  -- Each number of a well-formed instruction survives its 8-bit field, and the fields an instruction does not use are 0.
  cases i <;> simp only [Instr.wellFormed, Bool.and_eq_true, fitsField_iff] at h <;>
    simp [decode, encode, requireZero, Nat.mod_eq_of_lt, h]

theorem respond_encode {i : Instr} (h : i.wellFormed = true) (ref : Bool) (a : Data) :
    respond ref (encode i) a = operation i ref a :=
  respond_of_decode_ok (decode_encode h) ref a

theorem streamRequest_response (cfg : Config) (bytes : List Byte) :
    (streamRequest bytes).response cfg = decodeResponse (min 8 bytes.length) (packBytes bytes) :=
  have hlen : min 8 bytes.length < 256 := by omega
  respond_encode (i := .decode (min 8 bytes.length)) ((fitsField_iff _).2 hlen) _ _

theorem encodeRequest_response (cfg : Config) (v : Nat) {minWidth : Nat} (hw : minWidth < 256) :
    (encodeRequest v minWidth).response cfg = encodeResponse minWidth (BitVec.ofNat 64 v) :=
  respond_encode (i := .encode minWidth) ((fitsField_iff _).2 hw) _ _

/-- The bytes a host writes out for a value are the encoding of the value in some class. -/
theorem encodeRequest_bytes (cfg : Config) {v minWidth : Nat} (hv : v < 2 ^ 56) (hw : minWidth ≤ 64) :
    ∃ n, 1 ≤ n ∧ n ≤ 8 ∧ v < 2 ^ (7 * n) ∧
      ((encodeRequest v minWidth).response cfg).bytes = unpackBytes n (vintData n v) := by
  have ha : (BitVec.ofNat 64 v).toNat = v := Nat.mod_eq_of_lt (by omega)
  obtain ⟨n, h1, h8, hfit, hok⟩ := encodeResponse_eq_ok (ha.symm ▸ hv) hw
  rw [ha] at hfit hok
  refine ⟨n, h1, h8, hfit, ?_⟩
  rw [encodeRequest_response cfg v (by omega), hok, Response.bytes, Response.ok_n (by omega) (by omega), Response.ok_result,
    vintData]

/-! ## The walk through a stream -/

theorem walkStream_succ_of_success {cfg : Config} {bytes : List Byte} (hne : bytes ≠ [])
    (hok : ((streamRequest bytes).response cfg).err = 0) (count : Nat) :
    walkStream cfg (count + 1) bytes = (streamRequest bytes).response cfg ::
      walkStream cfg count (bytes.drop ((streamRequest bytes).response cfg).n) := by
  cases bytes with
  | nil => contradiction
  | cons byte bytes => simp only [walkStream, hok, if_true]

/-- A DECODE at the head of a stream that begins with an encoding answers the value encoded, whatever follows. -/
theorem streamRequest_response_of_encoding (cfg : Config) (rest : List Byte) {n v : Nat} (h1 : 1 ≤ n) (h8 : n ≤ 8)
    (hv : v < 2 ^ (7 * n)) :
    (streamRequest (unpackBytes n (vintData n v) ++ rest)).response cfg =
      Response.ok v (8 * n) n (isUnknown n v) := by
  rw [streamRequest_response]
  refine decodeResponse_of_vintWord h1 ?_ (Nat.min_le_left _ _) hv ?_
  · rw [List.length_append, unpackBytes_length]
    omega
  · rw [packBytes_unpackBytes_append _ _ h8, vintData_div h1 h8 hv]

/-- A walk reads the encoding at the head of a stream and goes on right behind it. -/
theorem walkStream_encoding_append (cfg : Config) (count : Nat) (rest : List Byte) {n v : Nat} (h1 : 1 ≤ n) (h8 : n ≤ 8)
    (hv : v < 2 ^ (7 * n)) :
    walkStream cfg (count + 1) (unpackBytes n (vintData n v) ++ rest) =
      Response.ok v (8 * n) n (isUnknown n v) :: walkStream cfg count rest := by
  have hresp := streamRequest_response_of_encoding cfg rest h1 h8 hv
  have hne : unpackBytes n (vintData n v) ++ rest ≠ [] := by
    rw [← List.length_pos_iff, List.length_append, unpackBytes_length]
    omega
  rw [walkStream_succ_of_success hne (by rw [hresp, Response.ok_err]), hresp, Response.ok_n (by omega) (by omega),
    List.drop_left' (unpackBytes_length _ _)]

/-- Settles O49, by induction on the values: the walk reads the first encoding and stands at the next. -/
theorem streamWalkReadsEveryValue : Obligations.StreamWalkReadsEveryValue := by
  intro cfg items hitems
  induction items with
  | nil => rfl
  | cons p items ih =>
    obtain ⟨hp, hrest⟩ := List.forall_mem_cons.1 hitems
    obtain ⟨n, h1, h8, hfit, hbytes⟩ := encodeRequest_bytes cfg hp.1 hp.2
    have hresult : (BitVec.ofNat 64 p.1).toNat = p.1 := Nat.mod_eq_of_lt (by omega)
    rw [List.flatMap_cons, hbytes, List.length_cons, walkStream_encoding_append cfg _ _ h1 h8 hfit, List.map_cons,
      List.map_cons, ih hrest, Response.ok_err, Response.ok_result, hresult]

end Sys2Proof.Machine
end

section
/-! PROOFS, 30_encoding.md: decoding and encoding are inverse (R42 to R45), a command word selects one row of the opcode table
or none (R53), the assembler encodes what the decoder reads (R54, R55), and an operation reads only its own bits of A (R46). -/

namespace Sys2Proof

/-! ## A command word is its fields (R42) -/

theorem packCommand_fields {c : Command} (hrsv : Command.rsv c = 0) :
    packCommand (Command.op c) (Command.cw c) (Command.b c) (Command.c c) = c := by
  apply BitVec.eq_of_toNat_eq
  rw [packCommand_toNat, Command.toNat_eq_fields, hrsv, Nat.mod_eq_of_lt (Command.op_lt c),
    Nat.mod_eq_of_lt (Command.cw_lt c), Nat.mod_eq_of_lt (Command.b_lt c), Nat.mod_eq_of_lt (Command.c_lt c)]
  omega

theorem Command.eq_iff_fields (c d : Command) :
    c = d ↔ Command.op c = Command.op d ∧ Command.rsv c = Command.rsv d ∧ Command.cw c = Command.cw d ∧
      Command.b c = Command.b d ∧ Command.c c = Command.c d := by
  constructor
  · rintro rfl
    exact ⟨rfl, rfl, rfl, rfl, rfl⟩
  · rintro ⟨hop, hrsv, hcw, hb, hc⟩
    apply BitVec.eq_of_toNat_eq
    rw [Command.toNat_eq_fields, hop, hrsv, hcw, hb, hc, ← Command.toNat_eq_fields]

theorem Command.rsv_lt (c : Command) : Command.rsv c < 1024 := BitVec.isLt _

@[simp] theorem Command.op_and (c d : Command) : Command.op (c &&& d) = Command.op c &&& Command.op d := by
  simp [Command.op, BitVec.extractLsb'_and]

@[simp] theorem Command.cw_and (c d : Command) : Command.cw (c &&& d) = Command.cw c &&& Command.cw d := by
  simp [Command.cw, BitVec.extractLsb'_and]

@[simp] theorem Command.rsv_and (c d : Command) : Command.rsv (c &&& d) = Command.rsv c &&& Command.rsv d := by
  simp [Command.rsv, BitVec.extractLsb'_and]

@[simp] theorem Command.b_and (c d : Command) : Command.b (c &&& d) = Command.b c &&& Command.b d := by
  simp [Command.b, BitVec.extractLsb'_and]

@[simp] theorem Command.c_and (c d : Command) : Command.c (c &&& d) = Command.c c &&& Command.c d := by
  simp [Command.c, BitVec.extractLsb'_and]

/-! ## Encoding what was decoded (R44, R45) -/

theorem fitsField_b (c : Command) : fitsField (Command.b c) = true := decide_eq_true (Command.b_lt c)

theorem fitsField_c (c : Command) : fitsField (Command.c c) = true := decide_eq_true (Command.c_lt c)

theorem wellFormed_of_decode_ok {c : Command} {i : Instr} (h : decode c = .ok i) : i.wellFormed = true := by
  obtain ⟨-, hrow⟩ := decode_ok_cases h
  -- The numbers of an instruction are the fields B and C of the word it was read from.
  rcases hrow with ⟨-, rfl⟩ | ⟨-, rfl, -⟩ | ⟨-, rfl, -⟩ | ⟨-, rfl, -⟩ | ⟨-, rfl, -⟩ | ⟨-, rfl, -⟩ | ⟨-, rfl, -⟩ |
    ⟨-, rfl, -⟩ | ⟨-, rfl, -⟩ | ⟨-, rfl, -⟩ <;> simp [Instr.wellFormed, fitsField_b, fitsField_c]

theorem encode_of_decode_ok {c : Command} {i : Instr} (h : decode c = .ok i) : encode i = c := by
  obtain ⟨hrsv, hrow⟩ := decode_ok_cases h
  have hsel := ContainerWidth.select_ofSelect (Command.cw_lt c)
  -- Encoding packs the fields of c again: those the instruction holds, and 0 for those that decoding found to be 0.
  conv_rhs => rw [← packCommand_fields hrsv]
  rcases hrow with ⟨hop, rfl⟩ | ⟨hop, rfl, h0⟩ | ⟨hop, rfl, h0⟩ | ⟨hop, rfl, h0⟩ | ⟨hop, rfl, h0⟩ | ⟨hop, rfl, h0⟩ |
    ⟨hop, rfl, h0⟩ | ⟨hop, rfl, h0⟩ | ⟨hop, rfl, h0⟩ | ⟨hop, rfl, h0⟩ <;> simp [encode, *]

/-- Settles O2. -/
theorem encodeOfDecodeIsIdentity : Obligations.EncodeOfDecodeIsIdentity :=
  fun _ _ h => ⟨wellFormed_of_decode_ok h, encode_of_decode_ok h⟩

/-! ## The command words that are no request (R45) -/

/-- The three conditions of R45 on the fields of a command word; tied to the decoder by `decode_eq_error_iff`. -/
def Command.Illegal (c : Command) : Prop :=
  Command.op c = 0 ∨ 11 ≤ Command.op c ∨ Command.rsv c ≠ 0 ∨
    (Command.cw c ≠ 0 ∧ 2 ≤ Command.op c ∧ Command.op c ≤ 4) ∨
    (Command.b c ≠ 0 ∧ (Command.op c = 2 ∨ Command.op c = 7 ∨ Command.op c = 8)) ∨
    (Command.c c ≠ 0 ∧ Command.op c ≠ 1)

theorem not_illegal_encode (i : Instr) : ¬ Command.Illegal (encode i) := by
  -- The word of each operation has a number from 1 to 10, and 0 in RSV and in the fields the operation does not use.
  cases i <;> simp [Command.Illegal, encode]

theorem not_illegal_of_decode_ok {c : Command} {i : Instr} (h : decode c = .ok i) : ¬ Command.Illegal c :=
  encode_of_decode_ok h ▸ not_illegal_encode i

theorem decode_eq_error_iff (c : Command) : (∃ why, decode c = .error why) ↔ Command.Illegal c := by
  constructor
  · rintro ⟨why, h⟩
    exact decode_error_cases h
  · intro hill
    cases hd : decode c with
    | ok i => exact absurd hill (not_illegal_of_decode_ok hd)
    | error why => exact ⟨why, rfl⟩

/-! ## The opcode table in fields (R44, R53) -/

/-- The mask of a row: OP, RSV and the fields its operation does not use. -/
def fieldMask (usesCw usesB usesC : Bool) : Command :=
  packCommand 15 (if usesCw then 0 else 3) (if usesB then 0 else 255) (if usesC then 0 else 255) ||| 0x03FF0000#32

/-- The row of an operation by its number and the fields it uses; tied to the model by `opcodeTable_eq_fieldRows`. -/
def fieldRow (mnemonic : String) (op : Nat) (usesCw usesB usesC : Bool) : OpcodeRow where
  mnemonic := mnemonic
  pattern := packCommand op 0 0 0
  mask := fieldMask usesCw usesB usesC

@[simp] theorem fieldRow_mnemonic (mnemonic : String) (op : Nat) (usesCw usesB usesC : Bool) :
    (fieldRow mnemonic op usesCw usesB usesC).mnemonic = mnemonic := rfl

theorem opcodeTable_eq_fieldRows : opcodeTable =
    [ fieldRow "BITS" 1 true true true, fieldRow "CALCW" 2 false false false, fieldRow "DECODE" 3 false true false,
      fieldRow "ENCODE" 4 false true false, fieldRow "PADU" 5 true true false, fieldRow "PADS" 6 true true false,
      fieldRow "CWU" 7 true false false, fieldRow "CWS" 8 true false false, fieldRow "SHRU" 9 true true false,
      fieldRow "SHRS" 10 true true false ] := by
  decide

theorem fieldMask_fields (usesCw usesB usesC : Bool) :
    Command.op (fieldMask usesCw usesB usesC) = 2 ^ 4 - 1 ∧
    Command.rsv (fieldMask usesCw usesB usesC) = 2 ^ 10 - 1 ∧
    Command.cw (fieldMask usesCw usesB usesC) = (if usesCw then 0 else 2 ^ 2 - 1) ∧
    Command.b (fieldMask usesCw usesB usesC) = (if usesB then 0 else 2 ^ 8 - 1) ∧
    Command.c (fieldMask usesCw usesB usesC) = (if usesC then 0 else 2 ^ 8 - 1) := by
  revert usesCw usesB usesC
  decide

/-- A field under a mask that is all ones or all zeros. -/
theorem field_and_mask_eq_zero_iff {x : Nat} (k : Nat) (hx : x < 2 ^ k) (uses : Bool) :
    x &&& (if uses then 0 else 2 ^ k - 1) = 0 ↔ uses = true ∨ x = 0 := by
  cases uses with
  | true => simp
  | false => simp [Nat.and_two_pow_sub_one_eq_mod, Nat.mod_eq_of_lt hx]

theorem rowSelects_fieldRow (c : Command) (mnemonic : String) {op : Nat} (hop : op < 16) (usesCw usesB usesC : Bool) :
    rowSelects c (fieldRow mnemonic op usesCw usesB usesC) = true ↔
      Command.op c = op ∧ Command.rsv c = 0 ∧ (usesCw = true ∨ Command.cw c = 0) ∧ (usesB = true ∨ Command.b c = 0) ∧
        (usesC = true ∨ Command.c c = 0) := by
  obtain ⟨mop, mrsv, mcw, mb, mc⟩ := fieldMask_fields usesCw usesB usesC
  rw [rowSelects, beq_iff_eq, Command.eq_iff_fields, fieldRow, Command.op_and, Command.rsv_and, Command.cw_and,
    Command.b_and, Command.c_and, mop, mrsv, mcw, mb, mc, Nat.and_two_pow_sub_one_eq_mod, Nat.and_two_pow_sub_one_eq_mod,
    Nat.mod_eq_of_lt (Command.op_lt c), Nat.mod_eq_of_lt (Command.rsv_lt c)]
  simp only [packCommand_op, packCommand_rsv, packCommand_cw, packCommand_b, packCommand_c, Nat.zero_mod,
    Nat.mod_eq_of_lt hop, field_and_mask_eq_zero_iff 2 (Command.cw_lt c), field_and_mask_eq_zero_iff 8 (Command.b_lt c),
    field_and_mask_eq_zero_iff 8 (Command.c_lt c)]

/-- The operation number of a word leaves one row, and the fields the operation does not use are 0. -/
theorem selectedMnemonics_encode (i : Instr) : selectedMnemonics (encode i) = [i.mnemonic] := by
  rw [selectedMnemonics, opcodeTable_eq_fieldRows]
  cases i <;> simp [encode, rowSelects_fieldRow, Instr.mnemonic]

theorem selectedMnemonics_of_decode_ok {c : Command} {i : Instr} (h : decode c = .ok i) :
    selectedMnemonics c = [i.mnemonic] :=
  encode_of_decode_ok h ▸ selectedMnemonics_encode i

theorem selectedMnemonics_of_illegal {c : Command} (h : Command.Illegal c) : selectedMnemonics c = [] := by
  have hnone : ∀ row ∈ opcodeTable, ¬ rowSelects c row = true := by
    unfold Command.Illegal at h
    simp only [opcodeTable_eq_fieldRows, List.forall_mem_cons, List.not_mem_nil, false_implies, implies_true, and_true,
      rowSelects_fieldRow, Nat.reduceLT, Bool.false_eq_true, true_or, false_or, true_and]
    omega
  rw [selectedMnemonics, List.filter_eq_nil_iff.2 hnone, List.map_nil]

end Sys2Proof

namespace Sys2Proof.Machine

/-- Settles O1. -/
theorem decodeOfEncodeIsIdentity : Obligations.DecodeOfEncodeIsIdentity :=
  fun _ h => decode_encode h

/-! ## ILLEGAL_REQUEST belongs to the decoder alone (R45, R53) -/

theorem Response.raise_err_ne_six {e : ErrorCause} (h : e ≠ .illegalRequest) : (Response.raise e).err ≠ 6 := by
  cases e <;> simp_all [ErrorCause.code]

theorem Response.ok_err_ne_six (res w n : Nat) (u : Bool) : (Response.ok res w n u).err ≠ 6 := by
  simp

theorem Response.ite_err_ne_six {p : Prop} [Decidable p] {r r' : Response} (h : r.err ≠ 6) (h' : r'.err ≠ 6) :
    (if p then r else r').err ≠ 6 := by
  split <;> assumption

theorem encodeResponse_err_ne_six (minWidth : Nat) (a : Data) : (encodeResponse minWidth a).err ≠ 6 := by
  unfold encodeResponse
  dsimp only
  split
  · exact Response.raise_err_ne_six (by decide)
  · exact Response.ok_err_ne_six _ _ _ _

theorem operation_err_ne_six (i : Instr) (ref : Bool) (a : Data) : (operation i ref a).err ≠ 6 := by
  have hok := Response.ok_err_ne_six
  have harg : (Response.raise .invalidArgument).err ≠ 6 := Response.raise_err_ne_six (by decide)
  have henc : (Response.raise .invalidEncoding).err ≠ 6 := Response.raise_err_ne_six (by decide)
  have htrunc : (Response.raise .truncatedInput).err ≠ 6 := Response.raise_err_ne_six (by decide)
  have hfit : (Response.raise .doesNotFit).err ≠ 6 := Response.raise_err_ne_six (by decide)
  cases i with
  | bits cw hi lo => exact Response.ite_err_ne_six (hok _ _ _ _) harg
  | calcw => exact Response.ite_err_ne_six henc (hok _ _ _ _)
  | decode len =>
    exact Response.ite_err_ne_six harg (Response.ite_err_ne_six henc (Response.ite_err_ne_six htrunc (hok _ _ _ _)))
  | encode minWidth => exact encodeResponse_err_ne_six minWidth a
  | padu cw w => exact Response.ite_err_ne_six harg (hok _ _ _ _)
  | pads cw w => exact Response.ite_err_ne_six harg (hok _ _ _ _)
  | cwu cw => exact hok _ _ _ _
  | cws cw => exact hok _ _ _ _
  | shru cw w => exact Response.ite_err_ne_six harg (Response.ite_err_ne_six hfit (hok _ _ _ _))
  | shrs cw w => exact Response.ite_err_ne_six harg (Response.ite_err_ne_six hfit (hok _ _ _ _))

/-- Settles O3, by what the decoder answers. -/
theorem commandSelectsOneRowOrIsIllegal : Obligations.CommandSelectsOneRowOrIsIllegal := by
  intro s req rest h
  have herr := (respond_legal s.config.refCompactWidth req.cmd req.a).err_le
  refine ⟨_, step_of_request h, by rw [Request.response]; omega, ?_⟩
  rw [Request.response]
  cases hd : decode req.cmd with
  | ok i =>
    rw [respond_of_decode_ok hd]
    exact .inl ⟨i, rfl, selectedMnemonics_of_decode_ok hd, exec_of_request h i, operation_err_ne_six i _ _⟩
  | error why =>
    rw [respond_of_decode_error hd]
    exact .inr ⟨selectedMnemonics_of_illegal ((decode_eq_error_iff _).1 ⟨why, hd⟩), Response.raise_fails .illegalRequest⟩

/-- Settles O4, by what the decoder answers. -/
theorem illegalRequestExactly : Obligations.IllegalRequestExactly := by
  intro s req rest h
  rw [← Command.op_eq, ← Command.cw_eq, ← Command.rsv_eq, ← Command.b_eq, ← Command.c_eq]
  change ∃ r : Response, step s = .next (s.answered rest r) ∧
    (r.err = 6 ↔ Command.Illegal req.cmd) ∧ (Command.Illegal req.cmd → r.Fails 6)
  refine ⟨_, step_of_request h, ?_⟩
  rw [Request.response]
  cases hd : decode req.cmd with
  | ok i =>
    have hlegal := not_illegal_of_decode_ok hd
    rw [respond_of_decode_ok hd]
    exact ⟨iff_of_false (operation_err_ne_six i _ _) hlegal, fun hill => absurd hill hlegal⟩
  | error why =>
    rw [respond_of_decode_error hd]
    exact ⟨iff_of_true (Response.raise_err _) ((decode_eq_error_iff _).1 ⟨why, hd⟩), fun _ => Response.raise_fails _⟩

/-! ## The assembler (R54, R55) -/

theorem asmContainer_select (cw : ContainerWidth) : asmContainer (8 <<< cw.select) = some cw := by
  cases cw <;> rfl

theorem asmInstr_asmLine (i : Instr) (a : Int) : asmInstr (asmLine i a) = some i := by
  cases i <;> simp only [asmInstr, asmLine, asmContainer_select, Option.bind_some] <;> rfl

@[simp] theorem asmLine_a (i : Instr) (a : Int) : (asmLine i a).a = a := by
  cases i <;> rfl

theorem assemble_of_instr {line : AsmLine} {i : Instr} (h : asmInstr line = some i) (ha : line.a < 2 ^ 64) :
    assemble line = if i.wellFormed then some { cmd := encode i, a := BitVec.ofInt 64 line.a } else none := by
  simp only [assemble, h, asmData, if_pos ha]

/-- The request of a line depends on the instruction it names and on its literal alone. -/
theorem assemble_congr {line line' : AsmLine} (hi : asmInstr line = asmInstr line') (ha : line.a = line'.a) :
    assemble line = assemble line' := by
  simp only [assemble, hi, ha]

theorem ofInt_toNat_eq_emod (a : Int) : ((BitVec.ofInt 64 a).toNat : Int) = a % 2 ^ 64 := by
  rw [BitVec.toNat_ofInt]
  omega

/-- Settles O7: a line names its instruction, and the decoder reads back what the assembler encodes. -/
theorem assemblerEncodesTheLine : Obligations.AssemblerEncodesTheLine := by
  refine ⟨fun i a ha => ?_, fun a => assemble_congr (asmInstr_asmLine (.encode 0) a).symm (asmLine_a _ a).symm⟩
  have hline := assemble_of_instr (asmInstr_asmLine i a) (by rwa [asmLine_a])
  rw [asmLine_a] at hline
  constructor
  · intro hwf
    rw [if_pos hwf] at hline
    exact ⟨_, hline, decode_encode hwf, ofInt_toNat_eq_emod a⟩
  · intro hill
    rwa [hill, if_neg Bool.false_ne_true] at hline

/-! ## The bits of A an operation reads (R46, 20_memory.md R35) -/

theorem containerUint_eq_of_mod_eq {cw : ContainerWidth} {a a' : Data}
    (h : a.toNat % 2 ^ containerBits cw = a'.toNat % 2 ^ containerBits cw) :
    containerUint (containerBits cw) a = containerUint (containerBits cw) a' := by
  rwa [containerUint_eq_mod (containerBits_pos cw), containerUint_eq_mod (containerBits_pos cw)]

theorem containerSint_eq_of_mod_eq {cw : ContainerWidth} {a a' : Data}
    (h : a.toNat % 2 ^ containerBits cw = a'.toNat % 2 ^ containerBits cw) :
    containerSint (containerBits cw) a = containerSint (containerBits cw) a' := by
  rw [containerSint, containerSint, containerUint_eq_of_mod_eq h]

/-- Operands with the same first `len` bytes have the same first n bytes, n at most `len`. -/
theorem firstBytes_eq_of_le {a a' : Data} {len n : Nat} (hlen : len ≤ 8) (hn : n ≤ len)
    (h : a.toNat / 2 ^ (64 - 8 * len) = a'.toNat / 2 ^ (64 - 8 * len)) :
    a.toNat / 2 ^ (64 - 8 * n) = a'.toNat / 2 ^ (64 - 8 * n) := by
  rw [show 64 - 8 * n = 64 - 8 * len + (8 * len - 8 * n) by omega, Nat.pow_add, ← Nat.div_div_eq_div_mul,
    ← Nat.div_div_eq_div_mul, h]

/-- DECODE reads no byte behind the first `len` (20_memory.md R35). -/
theorem decodeResponse_eq_of_firstBytes {len : Nat} {a a' : Data}
    (h : a.toNat / 2 ^ (64 - 8 * len) = a'.toNat / 2 ^ (64 - 8 * len)) : decodeResponse len a = decodeResponse len a' := by
  by_cases hlen : len = 0 ∨ len > maxVIntBytes
  · simp only [decodeResponse, if_pos hlen]
  · have hbus : 1 ≤ len ∧ len ≤ 8 := by
      rw [maxVIntBytes] at hlen
      omega
    have hhead : packedByte a 0 = packedByte a' 0 := by
      rw [packedByte_zero, packedByte_zero]
      exact firstBytes_eq_of_le hbus.2 hbus.1 h
    by_cases h0 : packedByte a' 0 = 0
    · simp only [decodeResponse, hhead, if_pos h0]
    · obtain ⟨hpos, hle, -, -⟩ := markerWidth_spec h0 (by rw [packedByte_zero]; omega)
      by_cases hshort : len < markerWidth (packedByte a' 0)
      · simp only [decodeResponse, hhead, if_pos hshort]
      · have hvalue : vintValue (markerWidth (packedByte a' 0)) a = vintValue (markerWidth (packedByte a' 0)) a' := by
          rw [vintValue_eq a hpos hle, vintValue_eq a' hpos hle, firstBytes_eq_of_le hbus.2 (Nat.not_lt.1 hshort) h]
        simp only [decodeResponse, hhead, hvalue]

/-- Settles O18, one operation after another. -/
theorem unreadBitsOfAAreIgnored : Obligations.UnreadBitsOfAAreIgnored := by
  intro i s₁ s₂ req₁ req₂ rest₁ rest₂ h₁ h₂ hcfg hread
  refine ⟨_, exec_of_request h₁ i, ?_⟩
  rw [exec_of_request h₂ i, ← hcfg]
  suffices hop : operation i s₁.config.refCompactWidth req₂.a = operation i s₁.config.refCompactWidth req₁.a by rw [hop]
  cases i with
  | bits cw hi lo => simp only [operation, bitsResponse, containerUint_eq_of_mod_eq hread]
  | calcw => simp only [operation, calcwResponse, headByte_eq_mod, hread]
  | decode len => exact (decodeResponse_eq_of_firstBytes hread).symm
  | encode minWidth => simp only [operation, hread]
  | padu cw w => simp only [operation, paduResponse, containerUint_eq_of_mod_eq hread]
  | pads cw w => simp only [operation, padsResponse, containerUint_eq_of_mod_eq hread]
  | cwu cw => simp only [operation, cwuResponse, containerUint_eq_of_mod_eq hread]
  | cws cw => simp only [operation, cwsResponse, containerSint_eq_of_mod_eq hread]
  | shru cw w => simp only [operation, shruResponse, containerUint_eq_of_mod_eq hread]
  | shrs cw w => simp only [operation, shrsResponse, containerSint_eq_of_mod_eq hread]

/-! ## The container width (R47) -/

theorem containerBits_ofSelect_eq_mul {k : Nat} (h : k < 4) : containerBits (ContainerWidth.ofSelect k) = 8 * 2 ^ k := by
  rw [containerBits_ofSelect h, Nat.shiftLeft_eq]

/-- A decoded BITS has the container width of its word's CW field. -/
theorem decode_bits_cw {c : Command} {cw : ContainerWidth} {hi lo : Nat} (h : decode c = .ok (.bits cw hi lo)) :
    cw = ContainerWidth.ofSelect (Command.cw c) := by
  obtain ⟨-, hrow⟩ := decode_ok_cases h
  simp only [Instr.bits.injEq, reduceCtorEq, false_and, and_false, or_false] at hrow
  exact hrow.2.1

/-- Settles O6. -/
theorem containerWidthOfSelect : Obligations.ContainerWidthOfSelect := by
  refine ⟨fun k hk => containerBits_ofSelect_eq_mul hk, fun c cw hi lo h => ?_⟩
  rw [decode_bits_cw h, containerBits_ofSelect_eq_mul (Command.cw_lt c), Command.cw_eq]

end Sys2Proof.Machine
end

section
/-! PROOFS, 41_bit_extractor.md: BITS answers with the slice hi..lo of the container (R56), and that slice with the other bits
of the container makes the container again (R57). -/

namespace Sys2Proof.Machine

/-! ## The bits of a slice (00_scope.md R12) -/

theorem slice_lt (v hi lo : Nat) : slice v hi lo < 2 ^ (hi - lo + 1) := Nat.mod_lt _ (Nat.two_pow_pos _)

theorem slice_testBit (v hi lo k : Nat) : (slice v hi lo).testBit k = (decide (k ≤ hi - lo) && v.testBit (lo + k)) := by
  simp only [slice, Nat.testBit_mod_two_pow, Nat.testBit_shiftRight, Nat.lt_succ_iff]

/-- A slice, the bits below it and the bits above it make the number again. -/
theorem slice_reassemble (v : Nat) {hi lo : Nat} (h : lo ≤ hi) :
    slice v hi lo * 2 ^ lo + v % 2 ^ lo + v / 2 ^ (hi + 1) * 2 ^ (hi + 1) = v := by
  have hpow : 2 ^ (hi + 1) = 2 ^ lo * 2 ^ (hi - lo + 1) := by
    rw [← Nat.pow_add]
    congr 1
    omega
  calc slice v hi lo * 2 ^ lo + v % 2 ^ lo + v / 2 ^ (hi + 1) * 2 ^ (hi + 1)
      = 2 ^ lo * (v / 2 ^ lo % 2 ^ (hi - lo + 1) + 2 ^ (hi - lo + 1) * (v / 2 ^ lo / 2 ^ (hi - lo + 1))) + v % 2 ^ lo := by
        rw [slice_eq_div_mod, Nat.div_div_eq_div_mul, hpow]
        ring
    _ = v := by rw [Nat.mod_add_div, Nat.div_add_mod]

/-! ## BITS on operands in range (R56) -/

/-- Below its width, the container has A's bits. -/
theorem containerUint_testBit {cw i : Nat} (h : i < cw) (a : Data) : (containerUint cw a).testBit i = a.getLsbD i := by
  rw [containerUint_eq_mod (by omega), Nat.testBit_mod_two_pow, decide_eq_true h, Bool.true_and, BitVec.getLsbD]

theorem bitsResponse_succeeds {cw : ContainerWidth} {hi lo : Nat} (hlo : lo ≤ hi) (hhi : hi < containerBits cw) (a : Data) :
    (bitsResponse (containerBits cw) hi lo a).Succeeds (slice (containerUint (containerBits cw) a) hi lo) (hi - lo + 1) 0
      false := by
  have hcw := containerBits_le cw
  have hfits : slice (containerUint (containerBits cw) a) hi lo < 2 ^ 64 :=
    (slice_lt _ hi lo).trans_le (Nat.pow_le_pow_right (by decide) (by omega))
  rw [bitsResponse, if_pos ⟨hlo, hhi⟩]
  exact Response.ok_succeeds hfits (by omega) (by decide) false

/-- Settles O24: the result is a slice of the container, whose bits in range are A's. -/
theorem bitsExtractsTheRange : Obligations.BitsExtractsTheRange := by
  intro s req rest cw hi lo h hlo hhi
  obtain ⟨hresult, hstatus⟩ := bitsResponse_succeeds hlo hhi req.a
  refine ⟨_, exec_of_request h _, hstatus, fun k => ?_⟩
  rw [operation, BitVec.getLsbD, hresult, slice_testBit]
  by_cases hk : k ≤ hi - lo
  · rw [containerUint_testBit (by omega)]
  · rw [decide_eq_false hk, Bool.false_and, Bool.false_and]

/-! ## The laws of BITS (R57) -/

/-- Settles O25: both laws hold of a slice of the container. -/
theorem bitsLaws : Obligations.BitsLaws := by
  intro s req rest cw hi lo h hlo hhi x
  obtain ⟨hresult, -⟩ := bitsResponse_succeeds hlo hhi req.a
  rw [containerUint_eq_mod (containerBits_pos cw)] at hresult
  refine ⟨_, exec_of_request h _, ?_⟩
  rw [operation, hresult]
  exact ⟨slice_lt _ hi lo, slice_reassemble x hlo⟩

end Sys2Proof.Machine
end

section
/-! PROOFS, 42_width_calculator.md: CALCW answers with the place of the marker in the head byte (R58), in both readings of that
place (R59), and agrees with DECODE (R60). -/

namespace Sys2Proof.Machine

/-! ## The marker of the head byte (R58, R60) -/

/-- The head byte down to its marker is N - 1 zeros and a one. -/
theorem headByte_div_of_marker {h n : Nat} (h8 : n ≤ 8) (lo : 2 ^ (8 - n) ≤ h) (hi : h < 2 ^ (9 - n)) : h / 2 ^ (8 - n) = 1 := by
  rw [show 9 - n = 8 - n + 1 by omega, Nat.pow_succ] at hi
  exact Nat.div_eq_of_lt_le (by omega) (by omega)

/-- A head byte whose marker is in place n is no error: CALCW answers with the 7n payload bits and the n bytes of its class. -/
theorem calcwResponse_of_marker {a : Data} {n : Nat} (h1 : 1 ≤ n) (h8 : n ≤ 8) (lo : 2 ^ (8 - n) ≤ a.toNat % 256)
    (hi : a.toNat % 256 < 2 ^ (9 - n)) : calcwResponse a = Response.ok (7 * n) (7 * n) n false := by
  have hhead : a.toNat % 256 ≠ 0 := (Nat.lt_of_lt_of_le (Nat.two_pow_pos _) lo).ne'
  have hmarker : markerWidth (a.toNat % 256) = n := markerWidth_eq_of_bounds h1 h8 lo hi
  have hindex : markerIndex (a.toNat % 256) + 1 = n := hmarker
  simp only [calcwResponse, headByte_eq_mod, if_neg hhead, hindex, hmarker]

theorem calcwResponse_succeeds {a : Data} {n : Nat} (h1 : 1 ≤ n) (h8 : n ≤ 8) (lo : 2 ^ (8 - n) ≤ a.toNat % 256)
    (hi : a.toNat % 256 < 2 ^ (9 - n)) : (calcwResponse a).Succeeds (7 * n) (7 * n) n false := by
  rw [calcwResponse_of_marker h1 h8 lo hi]
  exact Response.ok_succeeds (by omega) (by omega) (by omega) false

/-- Settles O26: the n of the statement is the marker width of the head byte. -/
theorem calcwFindsTheMarker : Obligations.CalcwFindsTheMarker := by
  intro s req rest h h0
  obtain ⟨h1, h8, lo, hi⟩ := markerWidth_spec h0 (Nat.mod_lt _ (by decide))
  exact ⟨_, _, h1, h8, lo, hi, exec_of_request h _, calcwResponse_succeeds h1 h8 lo hi⟩

/-! ## The LSB-0 position of the marker (R59) -/

theorem lt_eight_of_headByte_bit {a : Data} {p : Nat} (lo : 2 ^ p ≤ a.toNat % 256) : p < 8 :=
  (Nat.pow_lt_pow_iff_right (a := 2) (by decide)).1 (lo.trans_lt (Nat.mod_lt _ (by decide)))

/-- CALCW's result by the LSB-0 position p of the first set bit, which is the marker of class 8 - p. -/
theorem calcwResponse_result_of_bit {a : Data} {p : Nat} (lo : 2 ^ p ≤ a.toNat % 256) (hi : a.toNat % 256 < 2 ^ (p + 1)) :
    (calcwResponse a).result.toNat = 7 * (8 - p) := by
  have hp := lt_eight_of_headByte_bit lo
  obtain ⟨hresult, -⟩ := calcwResponse_succeeds (a := a) (n := 8 - p) (by omega) (by omega)
    (by rwa [show 8 - (8 - p) = p by omega]) (by rwa [show 9 - (8 - p) = p + 1 by omega])
  exact hresult

/-- Settles O27: both results are 7 (8 - p), with p at most 7. -/
theorem calcwIsMonotone : Obligations.CalcwIsMonotone := by
  intro s₁ s₂ req₁ req₂ rest₁ rest₂ p₁ p₂ h₁ h₂ lo₁ hi₁ lo₂ hi₂
  have hp₂ := lt_eight_of_headByte_bit lo₂
  have hresult₁ := calcwResponse_result_of_bit lo₁ hi₁
  have hresult₂ := calcwResponse_result_of_bit lo₂ hi₂
  refine ⟨_, _, exec_of_request h₁ _, exec_of_request h₂ _, hresult₁, hresult₂, fun hlt => ?_⟩
  rw [operation, operation, hresult₁, hresult₂]
  omega

/-! ## CALCW and DECODE of one head byte (R60) -/

/-- The response added by an answered request is the operation's. -/
theorem eq_operation_of_exec_next {i : Instr} {s : State} {req : Request} {rest : List Request} {r : Response}
    (h : s.requests = req :: rest) (hexec : exec i s = .next (s.answered rest r)) :
    r = operation i s.config.refCompactWidth req.a := by
  rw [exec_of_request h] at hexec
  simpa [State.answered] using hexec.symm

theorem Response.raise_err_ne_zero (e : ErrorCause) : (Response.raise e).err ≠ 0 := by
  rw [Response.raise_err]
  exact Nat.ne_of_gt e.code_pos

/-- If DECODE succeeds, its head byte is not 0, the n bytes its marker declares are there, and it answers with them (R63). -/
theorem decodeResponse_of_err_eq_zero {len n : Nat} {a : Data} (hn : markerWidth (packedByte a 0) = n)
    (h : (decodeResponse len a).err = 0) :
    packedByte a 0 ≠ 0 ∧ n ≤ len ∧ len ≤ 8 ∧
      decodeResponse len a = Response.ok (vintValue n a) (8 * n) n (isUnknown n (vintValue n a)) := by
  subst hn
  unfold decodeResponse at h ⊢
  dsimp only at h ⊢
  split_ifs at h ⊢ with hlen h0 hshort
  · exact absurd h (Response.raise_err_ne_zero _)
  · exact absurd h (Response.raise_err_ne_zero _)
  · exact absurd h (Response.raise_err_ne_zero _)
  · rw [maxVIntBytes] at hlen
    exact ⟨h0, by omega, by omega, rfl⟩

/-- A successful DECODE consumes the bytes its marker declares, and its W is the width of those bytes. -/
theorem decodeResponse_n_w {len : Nat} {a : Data} (h : (decodeResponse len a).err = 0) :
    (decodeResponse len a).n = markerWidth (packedByte a 0) ∧
      (decodeResponse len a).w = 8 * markerWidth (packedByte a 0) := by
  obtain ⟨-, hle, hlen, heq⟩ := decodeResponse_of_err_eq_zero rfl h
  rw [heq]
  exact ⟨Response.ok_n (by omega) (by omega) _ _, Response.ok_w (by omega) (by omega) _ _⟩

/-- Settles O28: CALCW and DECODE both answer with the marker width of the head byte. -/
theorem calcwRelations : Obligations.CalcwRelations := by
  intro s req rest h h0
  obtain ⟨h1, h8, lo, hi⟩ := markerWidth_spec h0 (Nat.mod_lt _ (by decide))
  have hok := calcwResponse_of_marker h1 h8 lo hi
  obtain ⟨hresult, -⟩ := calcwResponse_succeeds h1 h8 lo hi
  have hn : (calcwResponse req.a).n = markerWidth (req.a.toNat % 256) := by
    rw [hok]
    exact Response.ok_n (by omega) (by omega) _ _
  refine ⟨calcwResponse req.a, exec_of_request h _, ?_, ?_, ?_, ?_, ?_⟩
  · rw [hok, Response.ok_err]
  · rw [hresult, hn]
  · rw [hresult, hn]
    omega
  · rw [hn]
    exact headByte_div_of_marker h8 lo hi
  · intro s' req' rest' len r' h' hhead hexec herr
    obtain rfl : r' = decodeResponse len req'.a := eq_operation_of_exec_next h' hexec
    obtain ⟨hn', hw'⟩ := decodeResponse_n_w herr
    rw [packedByte_zero, hhead] at hn' hw'
    rw [hn', hw', hresult, hn]
    exact ⟨rfl, by omega⟩

end Sys2Proof.Machine
end

section
/-! PROOFS, 43_vint_codec.md: DECODE reads the value of a VInt off its own bytes alone (R61 to R65), ENCODE answers with the
least class that holds the value and the minimum width (R66, R69), and DECODE is its inverse (R68, R70). -/

namespace Sys2Proof.Machine

/-! ## DECODE (R61 to R65) -/

/-- Settles O29: the first n bytes are the encoding of v in class n. -/
theorem decodeReadsTheVInt : Obligations.DecodeReadsTheVInt := by
  intro s req rest len n v h h1 hn hlen hv ha
  have hlt : v < 2 ^ 64 := hv.trans_le (Nat.pow_le_pow_right (by decide) (by omega))
  refine ⟨_, exec_of_request h _, ?_⟩
  rw [operation, decodeResponse_of_vintWord h1 hn hlen hv ha]
  exact Response.ok_succeeds hlt (by omega) (by omega) _

/-- Every operand whose head byte is not 0 begins with an encoding: that of its value, in the class of its marker (R61). -/
theorem firstBytes_eq_vintWord {a : Data} {n : Nat} (h0 : packedByte a 0 ≠ 0) (hn : markerWidth (packedByte a 0) = n) :
    a.toNat / 2 ^ (64 - 8 * n) = vintWord n (vintValue n a) := by
  obtain ⟨h1, h8, lo, hi⟩ := markerWidth_spec h0 (by rw [packedByte_zero]; omega)
  rw [hn] at h1 h8 lo hi
  have hmarker : a.toNat / 2 ^ (64 - 8 * n) / 2 ^ (7 * n) = 1 := by
    rw [← headByte_div_of_marker h8 lo hi, packedByte_zero, Nat.div_div_eq_div_mul, Nat.div_div_eq_div_mul, ← Nat.pow_add,
      ← Nat.pow_add, show 64 - 8 * n + 7 * n = 56 + (8 - n) by omega]
  have hsplit := Nat.div_add_mod (a.toNat / 2 ^ (64 - 8 * n)) (2 ^ (7 * n))
  rw [hmarker, Nat.mul_one, ← vintValue_eq a h1 h8] at hsplit
  exact hsplit.symm

/-- A successful DECODE answers alike for every operand with the same first N bytes (R65). -/
theorem decodeResponse_eq_of_success {len : Nat} {a a' : Data} (h : (decodeResponse len a).err = 0)
    (ha : a.toNat / 2 ^ (64 - 8 * (decodeResponse len a).n) = a'.toNat / 2 ^ (64 - 8 * (decodeResponse len a).n)) :
    decodeResponse len a' = decodeResponse len a := by
  obtain ⟨h0, hle, hlen, heq⟩ := decodeResponse_of_err_eq_zero rfl h
  obtain ⟨h1, h8, -, -⟩ := markerWidth_spec h0 (by rw [packedByte_zero]; omega)
  have hvalue : vintValue (markerWidth (packedByte a 0)) a < 2 ^ (7 * markerWidth (packedByte a 0)) := by
    rw [vintValue_eq a h1 h8]
    exact Nat.mod_lt _ (Nat.two_pow_pos _)
  rw [(decodeResponse_n_w h).1, firstBytes_eq_vintWord h0 rfl] at ha
  rw [heq]
  exact decodeResponse_of_vintWord h1 hle hlen hvalue ha.symm

/-- Settles O30. -/
theorem decodeReadsOnlyItsBytes : Obligations.DecodeReadsOnlyItsBytes := by
  intro s₁ s₂ req₁ req₂ rest₁ rest₂ len h₁ h₂
  refine ⟨decodeResponse len req₁.a, exec_of_request h₁ _, fun herr => ⟨?_, fun hbytes => ?_⟩⟩
  · obtain ⟨-, hle, -, -⟩ := decodeResponse_of_err_eq_zero rfl herr
    rwa [(decodeResponse_n_w herr).1]
  · rw [exec_of_request h₂, operation, decodeResponse_eq_of_success herr hbytes]

/-! ## The class ENCODE chooses (R66, R68, R69) -/

/-- Class m holds v exactly when m bytes carry the bits of v, seven to a byte (R62). -/
theorem lt_two_pow_class_iff (v m : Nat) : v < 2 ^ (7 * m) ↔ (Nat.size v + 6) / 7 ≤ m := by
  rw [← Nat.size_le]
  omega

/-- The length of an ENCODE in closed form: enough bytes for the bits of v, for the minimum width, and at least one. -/
theorem smallestClass_eq_max {v minWidth : Nat} (hv : v < 2 ^ 56) (hw : minWidth ≤ 64) :
    smallestClass v minWidth = some (max (max ((Nat.size v + 6) / 7) ((minWidth + 7) / 8)) 1) := by
  have hclass8 := (lt_two_pow_class_iff v 8).1 hv
  simp only [smallestClass_eq_some_iff, lt_two_pow_class_iff]
  refine ⟨by omega, fun m h1 hfit hwidth => by omega⟩

/-- ENCODE answers with the encoding of its operand in the class it chooses, moved up to byte 0. -/
theorem encodeResponse_of_smallestClass {a : Data} {minWidth n : Nat} (h : smallestClass a.toNat minWidth = some n) :
    encodeResponse minWidth a = Response.ok (vintWord n a.toNat <<< (64 - 8 * n)) (8 * n) n false := by
  simp only [encodeResponse, h]

/-- ENCODE's word still fits RESULT once it is moved up to byte 0. -/
theorem vintWord_mul_lt {n v : Nat} (h1 : 1 ≤ n) (h8 : n ≤ 8) (hv : v < 2 ^ (7 * n)) :
    vintWord n v * 2 ^ (64 - 8 * n) < 2 ^ 64 := by
  rw [← vintData_div h1 h8 hv]
  exact (Nat.div_mul_le_self _ _).trans_lt (vintData n v).isLt

/-- Settles O32: the n of the statement is the class the model finds. -/
theorem encodeUsesTheSmallestClass : Obligations.EncodeUsesTheSmallestClass := by
  intro s req rest minWidth h hv hw
  have hclass := smallestClass_eq_max hv hw
  obtain ⟨⟨h1, h8, hfit, hwidth⟩, hleast⟩ := (smallestClass_eq_some_iff _ _ _).1 hclass
  refine ⟨_, _, exec_of_request h _, h1, h8, hfit, hwidth, hleast, ?_⟩
  rw [operation, encodeResponse_of_smallestClass hclass, Nat.shiftLeft_eq]
  exact Response.ok_succeeds (vintWord_mul_lt h1 h8 hfit) (by omega) (by omega) false

/-- Settles O34: with no minimum width, only the bits of the value count. -/
theorem encodeIsShortest : Obligations.EncodeIsShortest := by
  intro s req rest h hv
  have hclass8 := (lt_two_pow_class_iff req.a.toNat 8).1 hv
  have hok := encodeResponse_of_smallestClass (smallestClass_eq_max hv (Nat.zero_le 64))
  have hn : (encodeResponse 0 req.a).n = max 1 ((Nat.size req.a.toNat + 6) / 7) := by
    rw [hok, Response.ok_n (by omega) (by omega)]
    omega
  refine ⟨encodeResponse 0 req.a, exec_of_request h _, by rw [hok, Response.ok_err], hn, fun hlt => ?_,
    fun k h2 h8 hge hlt => ?_⟩
  · have hle := (lt_two_pow_class_iff req.a.toNat 1).1 hlt
    omega
  · have hle := (lt_two_pow_class_iff req.a.toNat k).1 hlt
    have hgt := mt (lt_two_pow_class_iff req.a.toNat (k - 1)).2 (Nat.not_lt.2 hge)
    omega

/-! ## DECODE of an ENCODE (R68, R70) -/

/-- DECODE of the word that ENCODE answers with for v in class n. -/
theorem decodeResponse_vintData {n v : Nat} (h1 : 1 ≤ n) (h8 : n ≤ 8) (hv : v < 2 ^ (7 * n)) :
    decodeResponse n (vintData n v) = Response.ok v (8 * n) n (isUnknown n v) :=
  decodeResponse_of_vintWord h1 le_rfl h8 hv (vintData_div h1 h8 hv)

/-- The least class of a value is the number of bytes its bits need, and at least one. -/
theorem eq_max_size_of_least_class {v nv : Nat} (h1 : 1 ≤ nv) (hfit : v < 2 ^ (7 * nv))
    (hleast : ∀ m, 1 ≤ m → v < 2 ^ (7 * m) → nv ≤ m) : nv = max ((Nat.size v + 6) / 7) 1 := by
  have hle := (lt_two_pow_class_iff v nv).1 hfit
  have hge := hleast (max ((Nat.size v + 6) / 7) 1) (Nat.le_max_right _ _)
    ((lt_two_pow_class_iff _ _).2 (Nat.le_max_left _ _))
  omega

/-- Settles O33: ENCODE answers with the encoding in the class of the statement's formula, and DECODE reads an encoding. -/
theorem vIntRoundTrip : Obligations.VIntRoundTrip := by
  intro s₁ req₁ rest₁ minWidth nv h hv hw hpos hnv hleast
  have hclass : smallestClass req₁.a.toNat minWidth = some (max (max nv ((minWidth + 7) / 8)) 1) := by
    rw [smallestClass_eq_max hv hw, eq_max_size_of_least_class hpos hnv hleast]
    congr 1
    omega
  generalize max (max nv ((minWidth + 7) / 8)) 1 = n at hclass ⊢
  obtain ⟨⟨h1, h8, hfit, -⟩, -⟩ := (smallestClass_eq_some_iff _ _ _).1 hclass
  have hok := encodeResponse_of_smallestClass hclass
  have hn : (encodeResponse minWidth req₁.a).n = n := by rw [hok, Response.ok_n (by omega) (by omega)]
  have hwidth : (encodeResponse minWidth req₁.a).w = 8 * n := by rw [hok, Response.ok_w (by omega) (by omega)]
  have hresult : (encodeResponse minWidth req₁.a).result = vintData n req₁.a.toNat := by
    rw [hok, Response.ok_result, vintData]
  refine ⟨encodeResponse minWidth req₁.a, exec_of_request h _, by rw [hok, Response.ok_err], hn, ?_⟩
  intro s₂ req₂ rest₂ h₂ ha₂
  refine ⟨_, exec_of_request h₂ _, ?_⟩
  rw [operation, hn, hwidth, ha₂, hresult, decodeResponse_vintData h1 h8 hfit]
  exact ⟨by simp, Response.ok_err _ _ _ _, Response.ok_n (by omega) (by omega) _ _,
    Response.ok_w (by omega) (by omega) _ _⟩

theorem encodeResponse_sentinel :
    encodeResponse 0 0x00FFFFFFFFFFFFFF#64 = Response.ok 0x01FFFFFFFFFFFFFF 64 8 false := by
  decide

/-- Settles O35: the encoding of 2^56 - 1 is the Unknown sentinel. -/
theorem encodeEmitsTheSentinel : Obligations.EncodeEmitsTheSentinel := by
  intro s req rest h ha
  refine ⟨_, exec_of_request h _, ?_, fun s₂ req₂ rest₂ h₂ ha₂ => ⟨_, exec_of_request h₂ _, ?_⟩⟩
  · rw [operation, ha, encodeResponse_sentinel]
    exact Response.ok_succeeds (by decide) (by decide) (by decide) false
  · rw [operation, ha₂, operation, ha, encodeResponse_sentinel, Response.ok_result, decodeResponse_sentinel]
    exact Response.ok_succeeds (by decide) (by decide) (by decide) true

end Sys2Proof.Machine
end

section
/-! PROOFS, 44_integer_padder.md: PADU answers with the low w bits of A (R72), and PADS with their sign extension to the container
(R73, R74), which has the value of the w-bit field it extends (R75). -/

namespace Sys2Proof.Machine

/-! ## PADU on a width in range (R72) -/

theorem containerUint_mod {cw w : Nat} (h1 : 1 ≤ w) (hcw : w ≤ cw) (a : Data) :
    containerUint cw a % 2 ^ w = a.toNat % 2 ^ w := by
  rw [containerUint_eq_mod (by omega), Nat.mod_mod_of_dvd _ (Nat.pow_dvd_pow 2 hcw)]

theorem paduResponse_succeeds {cw : ContainerWidth} {w : Nat} (h1 : 1 ≤ w) (hcw : w ≤ containerBits cw) (a : Data) :
    (paduResponse (containerBits cw) w a).Succeeds (a.toNat % 2 ^ w) w 0 false := by
  have hbus := containerBits_le cw
  have hslice : slice (containerUint (containerBits cw) a) (w - 1) 0 = a.toNat % 2 ^ w := by
    rw [slice_eq_div_mod, Nat.pow_zero, Nat.div_one, Nat.sub_zero, Nat.sub_add_cancel h1, containerUint_mod h1 hcw]
  rw [paduResponse, if_neg (by omega), hslice]
  exact Response.ok_succeeds ((Nat.mod_le _ _).trans_lt a.isLt) (by omega) (by decide) false

/-- Settles O36. -/
theorem paduZeroExtends : Obligations.PaduZeroExtends :=
  fun _ req _ _ _ h h1 hcw => ⟨_, exec_of_request h _, paduResponse_succeeds h1 hcw req.a⟩

/-! ## PADS on a width in range (R73, R74) -/

/-- The signed field PADS reads is the low w bits of A. -/
theorem signedFieldValue_containerUint {cw w : Nat} (h1 : 1 ≤ w) (hcw : w ≤ cw) (a : Data) :
    signedFieldValue w (containerUint cw a) = (a.setWidth w).toInt := by
  have hfield : BitVec.ofNat w (containerUint cw a) = a.setWidth w :=
    BitVec.eq_of_toNat_eq (by rw [BitVec.toNat_ofNat, BitVec.toNat_setWidth, containerUint_mod h1 hcw])
  rw [signedFieldValue_eq_toInt h1, hfield]

/-- PADS sign-extends the low w bits of A to the container, and the container with zeros to RESULT. -/
theorem padsResponse_eq_signExtend {cw w : Nat} (h1 : 1 ≤ w) (hcw : w ≤ cw) (a : Data) :
    padsResponse cw w a = Response.ok ((a.setWidth w).signExtend cw).toNat w 0 false := by
  rw [padsResponse, if_neg (by omega), signedFieldValue_containerUint h1 hcw, patternOf_eq_ofInt, BitVec.signExtend]

theorem padsResponse_result {cw w : Nat} (h1 : 1 ≤ w) (hcw : w ≤ cw) (a : Data) :
    (padsResponse cw w a).result = ((a.setWidth w).signExtend cw).setWidth 64 := by
  rw [padsResponse_eq_signExtend h1 hcw, Response.ok_result, BitVec.ofNat_toNat]

theorem padsResponse_status {cw w : Nat} (h1 : 1 ≤ w) (hcw : w ≤ cw) (hw : w < 256) (a : Data) :
    (padsResponse cw w a).status.toNat = 256 * w := by
  rw [padsResponse_eq_signExtend h1 hcw, Response.ok_status, successStatus_toNat hw (by decide)]
  simp

/-- The sign bit of the low w bits of A is A's bit w - 1, at width 1 too (R74). -/
theorem msb_setWidth_eq_getLsbD {w : Nat} (h1 : 1 ≤ w) (a : Data) : (a.setWidth w).msb = a.getLsbD (w - 1) := by
  rw [BitVec.msb_eq_getLsbD_last, BitVec.getLsbD_setWidth, decide_eq_true (by omega), Bool.true_and]

/-- Settles O37: below w the bits of the sign extension are A's, and above they are the sign bit's. -/
theorem padsSignExtends : Obligations.PadsSignExtends := by
  intro s req rest cw w h h1 hcw
  have hbus := containerBits_le cw
  refine ⟨_, exec_of_request h _, padsResponse_status h1 hcw (by omega) req.a, fun k => ?_⟩
  rw [operation, padsResponse_result h1 hcw, BitVec.getLsbD_setWidth, BitVec.getLsbD_signExtend, msb_setWidth_eq_getLsbD h1,
    BitVec.getLsbD_setWidth]
  by_cases hkw : k < w
  · have hk : k < 64 ∧ k < containerBits cw := by omega
    simp [hkw, hk]
  · by_cases hk : k < containerBits cw
    · have hk64 : k < 64 := by omega
      simp [hkw, hk, hk64]
    · simp [hkw, hk]

/-! ## The laws of PADU and PADS (R75) -/

/-- Read at the container's width, PADS's result has the value of the w-bit field. -/
theorem padsResponse_container_toInt {cw : ContainerWidth} {w : Nat} (h1 : 1 ≤ w) (hcw : w ≤ containerBits cw) (a : Data) :
    ((padsResponse (containerBits cw) w a).result.setWidth (containerBits cw)).toInt = (a.setWidth w).toInt := by
  rw [padsResponse_result h1 hcw, BitVec.setWidth_setWidth_of_le _ (containerBits_le cw), BitVec.setWidth_eq,
    BitVec.toInt_signExtend_of_le hcw]

/-- Settles O38: the value of a w-bit field is in the field's range. -/
theorem paddingLaws : Obligations.PaddingLaws := by
  intro s req rest cw w h h1 hcw
  obtain ⟨hpadu, -⟩ := paduResponse_succeeds h1 hcw req.a
  have hlo := BitVec.le_toInt (req.a.setWidth w)
  have hhi := BitVec.toInt_lt (x := req.a.setWidth w)
  refine ⟨_, _, exec_of_request h _, exec_of_request h _, ?_, padsResponse_result h1 hcw req.a, ?_, ?_⟩
  · rw [operation, hpadu, Nat.mod_mod_of_dvd _ (Nat.pow_dvd_pow 2 hcw)]
  · rwa [operation, padsResponse_container_toInt h1 hcw]
  · rw [operation, padsResponse_container_toInt h1 hcw]
    omega

end Sys2Proof.Machine
end

section
/-! PROOFS, 45_integer_shrinker.md: at REF = 0, CWU and CWS answer the least width that holds the value (R76 to R79), SHRU and SHRS
pack a value that fits (R80, R81), and PADU and PADS recover it from what they packed (R83, R84). -/

namespace Sys2Proof.Machine

/-! ## The minimal widths in closed form (R76, R77) -/

theorem compactUnsigned_minimal_eq_size (v : Nat) : compactUnsigned false v = max (Nat.size v) 1 := by
  rw [compactUnsigned, bitlen_eq_size]
  rfl

theorem compactUnsigned_minimal_eq_log (v : Nat) : compactUnsigned false v = if v = 0 then 1 else Nat.log 2 v + 1 := by
  by_cases h : v = 0 <;> simp [compactUnsigned, bitlen, h, Nat.log2_eq_log_two]

theorem compactSigned_minimal_eq_size (v : Int) :
    compactSigned false v = (if 0 ≤ v then Nat.size v.toNat else Nat.size (-v - 1).toNat) + 1 := by
  simp only [compactSigned, bitlen_eq_size, Bool.false_eq_true, if_false]
  split_ifs <;> rfl

/-! ## CWU and CWS answer the compact width of the container (R78, R79) -/

theorem cwuResponse_succeeds (ref : Bool) (cw : ContainerWidth) (a : Data) :
    (cwuResponse ref (containerBits cw) a).Succeeds (compactUnsigned ref (a.toNat % 2 ^ containerBits cw))
      (compactUnsigned ref (a.toNat % 2 ^ containerBits cw)) 0 false := by
  have hle := compactUnsigned_container_le ref cw a
  rw [containerUint_eq_mod (containerBits_pos cw)] at hle
  rw [cwuResponse, containerUint_eq_mod (containerBits_pos cw)]
  exact Response.ok_succeeds (by omega) (by omega) (by decide) false

theorem cwsResponse_succeeds (ref : Bool) (cw : ContainerWidth) (a : Data) :
    (cwsResponse ref (containerBits cw) a).Succeeds (compactSigned ref (a.setWidth (containerBits cw)).toInt)
      (compactSigned ref (a.setWidth (containerBits cw)).toInt) 0 false := by
  have hle := compactSigned_container_le ref cw a
  rw [containerSint_eq_toInt (containerBits_pos cw)] at hle
  rw [cwsResponse, containerSint_eq_toInt (containerBits_pos cw)]
  exact Response.ok_succeeds (by omega) (by omega) (by decide) false

/-- Settles O39: the compact width is at most w exactly when v fits in w bits. -/
theorem cwuIsMinimal : Obligations.CwuIsMinimal := by
  intro s req rest cw h href v
  have hfits {w : Nat} (hw : 1 ≤ w) : compactUnsigned false v ≤ w ↔ v ≤ 2 ^ w - 1 := by
    rw [compactUnsigned_minimal_le_iff hw, Nat.le_sub_one_iff_lt (Nat.two_pow_pos w)]
  refine ⟨_, _, exec_of_request h _, ?_, compactUnsigned_minimal_eq_size v, compactUnsigned_minimal_eq_log v,
    (hfits (compactUnsigned_pos false v)).1 le_rfl, fun w hw => (hfits hw).2⟩
  rw [href]
  exact cwuResponse_succeeds false cw req.a

/-- Settles O40: the compact width is at most w exactly when v is in the range of a w-bit signed field. -/
theorem cwsIsMinimal : Obligations.CwsIsMinimal := by
  intro s req rest cw h href v
  have hpos := compactSigned_pos false v
  obtain ⟨hlo, hhi⟩ := (compactSigned_minimal_le_iff hpos v).1 le_rfl
  refine ⟨_, _, exec_of_request h _, ?_, hpos, hlo, hhi,
    fun w hw hwlo hwhi => (compactSigned_minimal_le_iff hw v).2 ⟨hwlo, hwhi⟩, fun hv => ?_, fun hv => ?_⟩
  · rw [href]
    exact cwsResponse_succeeds false cw req.a
  · rw [compactSigned_minimal_eq_size, if_pos hv]
  · rw [compactSigned_minimal_eq_size, if_neg (by omega)]

/-! ## SHRU and SHRS on a value that fits (R80, R81) -/

theorem shruResponse_succeeds {ref : Bool} {cw : ContainerWidth} {w : Nat} {a : Data} (h1 : 1 ≤ w) (h64 : w ≤ 64)
    (hfit : compactUnsigned ref (a.toNat % 2 ^ containerBits cw) ≤ w) :
    (shruResponse ref (containerBits cw) w a).Succeeds (a.toNat % 2 ^ containerBits cw)
      (compactUnsigned ref (a.toNat % 2 ^ containerBits cw)) 0 false := by
  rw [shruResponse, if_neg (by omega), containerUint_eq_mod (containerBits_pos cw)]
  dsimp only
  rw [if_neg (Nat.not_lt.2 hfit)]
  exact Response.ok_succeeds ((Nat.mod_le _ _).trans_lt a.isLt) (by omega) (by decide) false

/-- Under either REF, a value whose compact width is at most w is not below the range of a w-bit signed field. -/
theorem neg_two_pow_le_of_compactSigned_le {ref : Bool} {w : Nat} {v : Int} (h1 : 1 ≤ w) (hfit : compactSigned ref v ≤ w) :
    -2 ^ (w - 1) ≤ v := by
  cases ref with
  | false => exact ((compactSigned_minimal_le_iff h1 v).1 hfit).1
  | true =>
    obtain ⟨h2, habs⟩ := (compactSigned_reference_le_iff h1 v).1 hfit
    have hlt : v.natAbs < 2 ^ (w - 1) := habs.trans_le (Nat.pow_le_pow_right (by decide) (by omega))
    have hp : ((2 ^ (w - 1) : Nat) : Int) = 2 ^ (w - 1) := by push_cast; rfl
    omega

/-- SHRS answers the w-bit pattern of the value, both its branches being that pattern (`patternOf_rawBits`). -/
theorem shrsResponse_succeeds {ref : Bool} {cw : ContainerWidth} {w : Nat} {a : Data} (h1 : 1 ≤ w) (h64 : w ≤ 64)
    (hfit : compactSigned ref (a.setWidth (containerBits cw)).toInt ≤ w) :
    (shrsResponse ref (containerBits cw) w a).Succeeds (BitVec.ofInt w (a.setWidth (containerBits cw)).toInt).toNat
      (compactSigned ref (a.setWidth (containerBits cw)).toInt) 0 false := by
  rw [shrsResponse, if_neg (by omega), containerSint_eq_toInt (containerBits_pos cw)]
  dsimp only
  rw [if_neg (Nat.not_lt.2 hfit), patternOf_rawBits h1 (neg_two_pow_le_of_compactSigned_le h1 hfit), patternOf_eq_ofInt]
  exact Response.ok_succeeds ((BitVec.isLt _).trans_le (Nat.pow_le_pow_right (by decide) h64)) (by omega) (by decide) false

/-- Settles O42. -/
theorem shruPacksWhatFits : Obligations.ShruPacksWhatFits := by
  intro s req rest cw w h href h1 h64 v hv
  refine ⟨_, exec_of_request h _, ?_⟩
  rw [href, ← compactUnsigned_minimal_eq_size]
  exact shruResponse_succeeds h1 h64 ((compactUnsigned_minimal_le_iff h1 v).2 hv)

/-- Settles O43. -/
theorem shrsPacksWhatFits : Obligations.ShrsPacksWhatFits := by
  intro s req rest cw w h href h1 h64 v hhi hlo
  refine ⟨_, exec_of_request h _, ?_⟩
  rw [href, ← compactSigned_minimal_eq_size]
  exact shrsResponse_succeeds h1 h64 ((compactSigned_minimal_le_iff h1 v).2 ⟨hlo, hhi⟩)

/-! ## The round trips through PADU and PADS (R83, R84) -/

theorem Response.Succeeds.err_eq_zero {r : Response} {result w n : Nat} {unk : Bool} (h : r.Succeeds result w n unk) :
    r.err = 0 := by
  obtain ⟨-, hstatus⟩ := h
  rw [Response.err_eq, hstatus]
  split <;> omega

/-- A value in the range of a w-bit signed field is the reading of its pattern in every container of w bits or more. -/
theorem toInt_ofInt_of_signed_range {n w : Nat} {v : Int} (h1 : 1 ≤ w) (hn : w ≤ n) (hlo : -2 ^ (w - 1) ≤ v)
    (hhi : v ≤ 2 ^ (w - 1) - 1) : (BitVec.ofInt n v).toInt = v := by
  have hpow : (2 : Int) ^ (w - 1) ≤ 2 ^ (n - 1) := pow_le_pow_right₀ (by decide) (by omega)
  exact BitVec.toInt_ofInt_eq_self (by omega) (by omega) (by omega)

/-- PADS turns the w-bit pattern of a value in range into the container's pattern of that value. -/
theorem padsResponse_of_pattern {w : Nat} {v : Int} {a : Data} (h1 : 1 ≤ w) (h64 : w ≤ 64) (hlo : -2 ^ (w - 1) ≤ v)
    (hhi : v ≤ 2 ^ (w - 1) - 1) (ha : a.toNat = (BitVec.ofInt w v).toNat) :
    (padsResponse 64 w a).result = BitVec.ofInt 64 v := by
  have hfield : a.setWidth w = BitVec.ofInt w v := by
    rw [← BitVec.ofNat_toNat, ha, BitVec.ofNat_toNat, BitVec.setWidth_eq]
  rw [padsResponse_result h1 h64, hfield, BitVec.signExtend, toInt_ofInt_of_signed_range h1 le_rfl hlo hhi,
    BitVec.setWidth_eq]

/-- Settles O44: SHRU answers v (R80), and PADU the low w bits of v (R72), which are v. -/
theorem unsignedRoundTrip : Obligations.UnsignedRoundTrip := by
  intro s₁ req₁ rest₁ w v h₁ href h1 h64 hv ha₁
  have hvw : v < 2 ^ w := (Nat.le_sub_one_iff_lt (Nat.two_pow_pos w)).1 hv
  have hv64 : v < 2 ^ 64 := hvw.trans_le (Nat.pow_le_pow_right (by decide) h64)
  have hread : req₁.a.toNat % 2 ^ containerBits .w64 = v := by
    rw [ha₁, BitVec.toNat_ofNat, Nat.mod_eq_of_lt hv64]
    exact Nat.mod_eq_of_lt hv64
  obtain ⟨r₁, hexec₁, hr₁⟩ := shruPacksWhatFits s₁ req₁ rest₁ .w64 w h₁ href h1 h64 (hread.trans_lt hvw)
  have hresult₁ : r₁.result.toNat = v := hr₁.1.trans hread
  refine ⟨r₁, hexec₁, hr₁.err_eq_zero, hresult₁, fun s₂ req₂ rest₂ h₂ ha₂ => ?_⟩
  obtain ⟨r₂, hexec₂, hr₂⟩ := paduZeroExtends s₂ req₂ rest₂ .w64 w h₂ h1 h64
  refine ⟨r₂, hexec₂, hr₂.err_eq_zero, ?_⟩
  rw [hr₂.1, ha₂, hresult₁, Nat.mod_eq_of_lt hvw]

/-- Settles O45: SHRS answers the w-bit pattern of v (R81), and PADS extends its sign to 64 bits (R73). -/
theorem signedRoundTrip : Obligations.SignedRoundTrip := by
  intro s₁ req₁ rest₁ w v h₁ href h1 h64 hlo hhi ha₁
  have hvalue : (BitVec.ofInt 64 v).toInt = v := toInt_ofInt_of_signed_range h1 h64 hlo hhi
  have hread : (req₁.a.setWidth (containerBits .w64)).toInt = v := by
    rw [ha₁]
    exact (congrArg BitVec.toInt (BitVec.setWidth_eq _)).trans hvalue
  obtain ⟨r₁, hexec₁, hr₁⟩ := shrsPacksWhatFits s₁ req₁ rest₁ .w64 w h₁ href h1 h64 (by rwa [hread]) (by rwa [hread])
  have hresult₁ : r₁.result.toNat = (BitVec.ofInt w v).toNat := by rw [hr₁.1, hread]
  refine ⟨r₁, hexec₁, hr₁.err_eq_zero, hresult₁, fun s₂ req₂ rest₂ h₂ ha₂ => ?_⟩
  have hresult₂ : (padsResponse 64 w req₂.a).result = BitVec.ofInt 64 v :=
    padsResponse_of_pattern h1 h64 hlo hhi (by rw [ha₂, hresult₁])
  have herr₂ : (padsResponse 64 w req₂.a).err = 0 := by
    rw [padsResponse_eq_signExtend h1 h64, Response.ok_err]
  exact ⟨_, exec_of_request h₂ _, herr₂, hresult₂, (congrArg BitVec.toInt hresult₂).trans hvalue⟩

end Sys2Proof.Machine
end

section
/-! PROOFS, 60_exceptions.md: each ERR code is answered exactly on its cause (R86), in the order of R88, and an error
response holds its code and nothing else (R89). -/

namespace Sys2Proof.Machine

/-! ## An error response is its code (R89) -/

theorem Response.Legal.fails {r : Response} (hr : r.Legal) {k : Nat} (hk : k ≠ 0) (herr : r.err = k) : r.Fails k := by
  subst herr
  exact hr.error_outputs hk

theorem Response.Legal.error_fields {r : Response} (hr : r.Legal) (herr : r.err ≠ 0) :
    r.result = 0#64 ∧ r.status = BitVec.ofNat 32 r.err ∧ r.unk = false ∧ r.n = 0 ∧ r.w = 0 := by
  have hle := hr.err_le
  obtain ⟨hresult, hstatus⟩ := hr.error_outputs herr
  refine ⟨hresult, ?_, Bool.eq_false_iff.2 fun hunk => herr (hr.unknown hunk).1, ?_, ?_⟩
  · rw [← hstatus, BitVec.ofNat_toNat, BitVec.setWidth_eq]
  · rw [Response.n_eq]
    omega
  · rw [Response.w_eq]
    omega

/-- Settles O16: the step answers with `respond` of the request, which is legal. -/
theorem errorResponseIsCodeOnly : Obligations.ErrorResponseIsCodeOnly :=
  fun _ _ _ h => ⟨_, step_of_request h, (respond_legal _ _ _).error_fields⟩

/-! ## The ERR code of every operation (R86, R88) -/

/-- The marker declares more than `len` bytes exactly when the head byte is zero down to bit 8 - len. -/
theorem lt_markerWidth_iff {len : Nat} (h1 : 1 ≤ len) (h8 : len ≤ 8) (h : Nat) :
    len < markerWidth h ↔ h < 2 ^ (8 - len) := by
  rw [← bitlen_le_iff, markerWidth, markerIndex]
  omega

/-- The ERR code of an operation: the checks of 60_exceptions.md R86 in the order of R88, and 0 when all are passed; tied to
the model by `operation_err`. -/
def errorCode : Instr → Bool → Data → Nat
  | .bits cw hi lo, _, _ => if hi < lo ∨ containerBits cw ≤ hi then 1 else 0
  | .calcw, _, a => if a.toNat % 256 = 0 then 2 else 0
  | .decode len, _, a =>
    if len = 0 ∨ 8 < len then 1
    else if a.toNat / 2 ^ 56 = 0 then 2
    else if a.toNat / 2 ^ 56 < 2 ^ (8 - len) then 3
    else 0
  | .encode minWidth, _, a => if 2 ^ 56 ≤ a.toNat ∨ 64 < minWidth then 4 else 0
  | .padu cw w, _, _ | .pads cw w, _, _ => if w = 0 ∨ containerBits cw < w then 1 else 0
  | .cwu _, _, _ | .cws _, _, _ => 0
  | .shru cw w, ref, a =>
    if w = 0 ∨ 64 < w then 1
    else if w < compactUnsigned ref (a.toNat % 2 ^ containerBits cw) then 5
    else 0
  | .shrs cw w, ref, a =>
    if w = 0 ∨ 64 < w then 1
    else if w < compactSigned ref (a.setWidth (containerBits cw)).toInt then 5
    else 0

theorem Response.ite_err (p : Prop) [Decidable p] (r r' : Response) :
    (if p then r else r').err = if p then r.err else r'.err :=
  apply_ite Response.err p r r'

theorem bitsResponse_err (cw hi lo : Nat) (a : Data) :
    (bitsResponse cw hi lo a).err = if hi < lo ∨ cw ≤ hi then 1 else 0 := by
  rw [bitsResponse, Response.ite_err, Response.ok_err, Response.raise_err, ErrorCause.code]
  split_ifs <;> omega

theorem calcwResponse_err (a : Data) : (calcwResponse a).err = if a.toNat % 256 = 0 then 2 else 0 := by
  simp only [calcwResponse, Response.ite_err, Response.ok_err, Response.raise_err, ErrorCause.code, headByte_eq_mod]

theorem decodeResponse_err (len : Nat) (a : Data) :
    (decodeResponse len a).err =
      if len = 0 ∨ 8 < len then 1
      else if a.toNat / 2 ^ 56 = 0 then 2
      else if a.toNat / 2 ^ 56 < 2 ^ (8 - len) then 3
      else 0 := by
  simp only [decodeResponse, Response.ite_err, Response.ok_err, Response.raise_err, ErrorCause.code, packedByte_zero,
    maxVIntBytes]
  by_cases hlen : len = 0 ∨ 8 < len
  · rw [if_pos hlen, if_pos hlen]
  · rw [if_neg hlen, if_neg hlen]
    simp only [lt_markerWidth_iff (len := len) (by omega) (by omega)]

theorem encodeResponse_err (minWidth : Nat) (a : Data) :
    (encodeResponse minWidth a).err = if 2 ^ 56 ≤ a.toNat ∨ 64 < minWidth then 4 else 0 := by
  cases hclass : smallestClass a.toNat minWidth with
  | none =>
    rw [if_pos ((smallestClass_eq_none_iff _ _).1 hclass)]
    simp [encodeResponse, hclass, ErrorCause.code]
  | some n =>
    rw [if_neg fun hlarge => by simp [(smallestClass_eq_none_iff _ _).2 hlarge] at hclass,
      encodeResponse_of_smallestClass hclass, Response.ok_err]

theorem paduResponse_err (cw w : Nat) (a : Data) : (paduResponse cw w a).err = if w = 0 ∨ cw < w then 1 else 0 := by
  simp only [paduResponse, Response.ite_err, Response.ok_err, Response.raise_err, ErrorCause.code, Nat.lt_one_iff]

theorem padsResponse_err (cw w : Nat) (a : Data) : (padsResponse cw w a).err = if w = 0 ∨ cw < w then 1 else 0 := by
  simp only [padsResponse, Response.ite_err, Response.ok_err, Response.raise_err, ErrorCause.code, Nat.lt_one_iff]

theorem shruResponse_err (ref : Bool) (cw : ContainerWidth) (w : Nat) (a : Data) :
    (shruResponse ref (containerBits cw) w a).err =
      if w = 0 ∨ 64 < w then 1
      else if w < compactUnsigned ref (a.toNat % 2 ^ containerBits cw) then 5
      else 0 := by
  simp only [shruResponse, Response.ite_err, Response.ok_err, Response.raise_err, ErrorCause.code, Nat.lt_one_iff,
    containerUint_eq_mod (containerBits_pos cw)]

theorem shrsResponse_err (ref : Bool) (cw : ContainerWidth) (w : Nat) (a : Data) :
    (shrsResponse ref (containerBits cw) w a).err =
      if w = 0 ∨ 64 < w then 1
      else if w < compactSigned ref (a.setWidth (containerBits cw)).toInt then 5
      else 0 := by
  simp only [shrsResponse, Response.ite_err, Response.ok_err, Response.raise_err, ErrorCause.code, Nat.lt_one_iff,
    containerSint_eq_toInt (containerBits_pos cw)]

/-- The ERR field of every response is the code of its operation's first failed check. -/
theorem operation_err (i : Instr) (ref : Bool) (a : Data) : (operation i ref a).err = errorCode i ref a := by
  cases i with
  | bits cw hi lo => exact bitsResponse_err _ hi lo a
  | calcw => exact calcwResponse_err a
  | decode len => exact decodeResponse_err len a
  | encode minWidth => exact encodeResponse_err minWidth a
  | padu cw w => exact paduResponse_err _ w a
  | pads cw w => exact padsResponse_err _ w a
  | cwu cw => exact Response.ok_err _ _ _ _
  | cws cw => exact Response.ok_err _ _ _ _
  | shru cw w => exact shruResponse_err ref cw w a
  | shrs cw w => exact shrsResponse_err ref cw w a

/-! ## Each code exactly on its cause -/

/-- If a code is an operation's code exactly on a cause, then the operation answers with the error exactly on that cause. -/
theorem exec_fails_exactly {i : Instr} {s : State} {req : Request} {rest : List Request} {k : Nat} {cause : Prop}
    (h : s.requests = req :: rest) (hk : k ≠ 0) (hcause : errorCode i s.config.refCompactWidth req.a = k ↔ cause) :
    ∃ r : Response, exec i s = .next (s.answered rest r) ∧ (r.err = k ↔ cause) ∧ (cause → r.Fails k) := by
  rw [← operation_err] at hcause
  exact ⟨_, exec_of_request h i, hcause, fun hc => (operation_legal _ _ _).fails hk (hcause.2 hc)⟩

/-- Settles O19: the first check of each operation that has one on its numbers. -/
theorem invalidArgumentExactly : Obligations.InvalidArgumentExactly := by
  intro i s req rest h
  refine exec_fails_exactly h (by decide) ?_
  cases i with
  | bits cw hi lo => exact Ne.ite_eq_left_iff (by decide)
  | padu cw w | pads cw w => exact Ne.ite_eq_left_iff (by decide)
  | decode len => simp [errorCode, ite_eq_iff, -ite_eq_left_iff]
  | shru cw w | shrs cw w => simp [errorCode, ite_eq_iff, -ite_eq_left_iff]
  | calcw | encode minWidth | cwu cw | cws cw => simp [errorCode, ite_eq_iff]

/-- Settles O20: CALCW's only check, and DECODE's second. -/
theorem invalidEncodingExactly : Obligations.InvalidEncodingExactly := by
  intro i s req rest h
  refine exec_fails_exactly h (by decide) ?_
  cases i with
  | calcw => exact Ne.ite_eq_left_iff (by decide)
  | decode len => simp [errorCode, ite_eq_iff, Nat.one_le_iff_ne_zero, and_assoc]
  | _ => simp [errorCode, ite_eq_iff]

/-- Settles O21: DECODE's third check. -/
theorem truncatedInputExactly : Obligations.TruncatedInputExactly := by
  intro i s req rest h
  refine exec_fails_exactly h (by decide) ?_
  cases i with
  | decode len => simp [errorCode, ite_eq_iff, Nat.one_le_iff_ne_zero, Nat.pos_iff_ne_zero, and_assoc]
  | _ => simp [errorCode, ite_eq_iff]

/-- Settles O22: ENCODE's only check. -/
theorem valueTooLargeExactly : Obligations.ValueTooLargeExactly := by
  intro i s req rest h
  refine exec_fails_exactly h (by decide) ?_
  cases i with
  | encode minWidth => exact Ne.ite_eq_left_iff (by decide)
  | _ => simp [errorCode, ite_eq_iff]

/-- SHRU and SHRS raise DOES_NOT_FIT exactly for a legal width below the compact width c. -/
theorem shrink_code_eq_five_iff (w c : Nat) :
    (if w = 0 ∨ 64 < w then 1 else if w < c then 5 else 0) = 5 ↔ 1 ≤ w ∧ w ≤ 64 ∧ w < c := by
  simp [ite_eq_iff, Nat.one_le_iff_ne_zero, and_assoc]

theorem lt_compactUnsigned_minimal_iff {w : Nat} (hw : 1 ≤ w) (v : Nat) : w < compactUnsigned false v ↔ 2 ^ w ≤ v := by
  rw [← Nat.not_le, compactUnsigned_minimal_le_iff hw, Nat.not_lt]

theorem lt_compactUnsigned_reference_iff {w : Nat} (hw : 1 ≤ w) (v : Nat) :
    w < compactUnsigned true v ↔ 2 ^ (w - 1) ≤ v := by
  rw [← Nat.not_le, compactUnsigned_reference_le_iff hw, Nat.not_lt]

theorem lt_compactSigned_minimal_iff {w : Nat} (hw : 1 ≤ w) (v : Int) :
    w < compactSigned false v ↔ v < -2 ^ (w - 1) ∨ 2 ^ (w - 1) ≤ v := by
  rw [← Nat.not_le, compactSigned_minimal_le_iff hw]
  omega

theorem lt_compactSigned_reference_iff {w : Nat} (hw : 1 ≤ w) (v : Int) :
    w < compactSigned true v ↔ w = 1 ∨ 2 ^ (w - 2) ≤ v.natAbs := by
  rw [← Nat.not_le, compactSigned_reference_le_iff hw]
  omega

/-- Settles O23: the second check of SHRU and SHRS, as a range of the value under either REF. -/
theorem doesNotFitExactly : Obligations.DoesNotFitExactly := by
  intro i s req rest h
  refine exec_fails_exactly h (by decide) ?_
  generalize s.config.refCompactWidth = ref
  cases i with
  | shru cw w =>
    refine (shrink_code_eq_five_iff w _).trans ?_
    cases ref with
    | false => exact and_congr_right fun hw => and_congr_right fun _ => lt_compactUnsigned_minimal_iff hw _
    | true => exact and_congr_right fun hw => and_congr_right fun _ => lt_compactUnsigned_reference_iff hw _
  | shrs cw w =>
    refine (shrink_code_eq_five_iff w _).trans ?_
    cases ref with
    | false => exact and_congr_right fun hw => and_congr_right fun _ => lt_compactSigned_minimal_iff hw _
    | true => exact and_congr_right fun hw => and_congr_right fun _ => lt_compactSigned_reference_iff hw _
  | _ => simp [errorCode, ite_eq_iff]

end Sys2Proof.Machine
end

section
/-! PROOFS, 10_state.md and 30_encoding.md: the step without a request and with one (R29, R30), the state after reset (R33), and
words written out from the encodings (R42 to R44). -/

namespace Sys2Proof.Machine

/-! ## The command word (30_encoding.md R42 to R44) -/

/-- Settles O5, by decoding each of the closed words. -/
theorem sampleWordsDecode : Obligations.SampleWordsDecode := by
  refine ⟨?_, ?_, ?_, ?_, ?_, ?_⟩ <;> decide

/-! ## The step (10_state.md R29, R30) -/

/-- Settles O9: the step is the decoder and the operation, and `respond` is their composition. -/
theorem stepIsRespond : Obligations.StepIsRespond :=
  fun _ _ _ h => step_of_request h

/-- Settles O11. -/
theorem noStepWithoutRequest : Obligations.NoStepWithoutRequest :=
  fun _ h => step_of_no_request h

/-! ## Reset (10_state.md R33) -/

/-- Settles O12. -/
theorem resetHasNoResponse : Obligations.ResetHasNoResponse :=
  ⟨State.reset_requests, State.reset_responses, congrArg Config.refCompactWidth State.reset_config⟩

theorem State.legal_of_no_response {s : State} (h : s.responses = []) : s.Legal := by
  intro r hr
  rw [h] at hr
  exact absurd hr List.not_mem_nil

/-- Settles O13. -/
theorem resetIsLegal : Obligations.ResetIsLegal :=
  State.legal_of_no_response State.reset_responses

end Sys2Proof.Machine
end

section
/-! PROOFS, 45_integer_shrinker.md §3 and §4: at REF = 1, CWU and CWS answer the reference's widths (R82), and SHRU and SHRS
pack the values whose reference width fits, which PADU and PADS recover (R85). -/

namespace Sys2Proof.Machine

/-! ## The reference's widths in closed form (R82) -/

theorem compactUnsigned_reference_eq_size (v : Nat) : compactUnsigned true v = Nat.size v + 1 := by
  rw [compactUnsigned, if_pos rfl, bitlen_eq_size]

theorem compactSigned_reference_eq_size (v : Int) : compactSigned true v = Nat.size v.natAbs + 2 := by
  rw [compactSigned, if_pos rfl, compactUnsigned_reference_eq_size]

/-- The source's form of the bit length, `ceil(log2(v + 1))`: each is the least k with v < 2^k. -/
theorem size_eq_clog_succ (v : Nat) : Nat.size v = Nat.clog 2 (v + 1) :=
  eq_of_forall_ge_iff fun k => by rw [Nat.size_le, Nat.clog_le_iff_le_pow (by decide), Nat.succ_le_iff]

/-- Settles O41. -/
theorem referenceCompactWidths : Obligations.ReferenceCompactWidths := by
  intro s req rest cw h href u v
  refine ⟨_, _, exec_of_request h _, exec_of_request h _, ?_, congrArg (· + 1) (size_eq_clog_succ u), ?_⟩
  · rw [href, ← compactUnsigned_reference_eq_size]
    exact cwuResponse_succeeds true cw req.a
  · rw [href, ← compactSigned_reference_eq_size]
    exact cwsResponse_succeeds true cw req.a

/-! ## SHRU and SHRS succeed exactly on a compact width that fits (R80, R81) -/

theorem shruResponse_err_eq_zero_iff {ref : Bool} {cw : ContainerWidth} {w : Nat} {a : Data} (h1 : 1 ≤ w) (h64 : w ≤ 64) :
    (shruResponse ref (containerBits cw) w a).err = 0 ↔ compactUnsigned ref (a.toNat % 2 ^ containerBits cw) ≤ w := by
  rw [shruResponse_err, if_neg (by omega), Ne.ite_eq_right_iff (by decide), Nat.not_lt]

theorem shrsResponse_err_eq_zero_iff {ref : Bool} {cw : ContainerWidth} {w : Nat} {a : Data} (h1 : 1 ≤ w) (h64 : w ≤ 64) :
    (shrsResponse ref (containerBits cw) w a).err = 0 ↔
      compactSigned ref (a.setWidth (containerBits cw)).toInt ≤ w := by
  rw [shrsResponse_err, if_neg (by omega), Ne.ite_eq_right_iff (by decide), Nat.not_lt]

/-! ## The round trips at REF = 1 (R85) -/

/-- The reference's widths over-allocate (00_scope.md R9): they are never below the minimal ones. -/
theorem compactUnsigned_minimal_le_reference (v : Nat) : compactUnsigned false v ≤ compactUnsigned true v := by
  rw [compactUnsigned_minimal_eq_size, compactUnsigned_reference_eq_size]
  omega

theorem compactSigned_minimal_le_reference (v : Int) : compactSigned false v ≤ compactSigned true v := by
  rw [compactSigned_minimal_eq_size, compactSigned_reference_eq_size]
  split_ifs with hv
  · have hsize : Nat.size v.toNat ≤ Nat.size v.natAbs := Nat.size_le_size (by omega)
    omega
  · have hsize : Nat.size (-v - 1).toNat ≤ Nat.size v.natAbs := Nat.size_le_size (by omega)
    omega

/-- PADU answers a value below 2^w unchanged. -/
theorem paduResponse_of_lt {w : Nat} {a : Data} (h1 : 1 ≤ w) (h64 : w ≤ 64) (ha : a.toNat < 2 ^ w) :
    (paduResponse 64 w a).Succeeds a.toNat w 0 false := by
  have hok := paduResponse_succeeds (cw := .w64) h1 h64 a
  rwa [Nat.mod_eq_of_lt ha] at hok

/-- Settles O46: a shrink succeeds exactly when the reference width fits, and then the minimal width fits too,
so that the value is in the range of the w-bit field. -/
theorem referenceModePacking : Obligations.ReferenceModePacking := by
  intro s req rest cw w h href h1 h64 u v
  have hu : (shruResponse true (containerBits cw) w req.a).err = 0 ↔ compactUnsigned true u ≤ w :=
    shruResponse_err_eq_zero_iff h1 h64
  have hv : (shrsResponse true (containerBits cw) w req.a).err = 0 ↔ compactSigned true v ≤ w :=
    shrsResponse_err_eq_zero_iff h1 h64
  have hshru (herr : (shruResponse true (containerBits cw) w req.a).err = 0) :=
    shruResponse_succeeds h1 h64 (hu.1 herr)
  have hshrs (herr : (shrsResponse true (containerBits cw) w req.a).err = 0) :=
    shrsResponse_succeeds h1 h64 (hv.1 herr)
  refine ⟨shruResponse true (containerBits cw) w req.a, shrsResponse true (containerBits cw) w req.a,
    href ▸ exec_of_request h (.shru cw w), href ▸ exec_of_request h (.shrs cw w),
    hu.trans (compactUnsigned_reference_le_iff h1 u), hv.trans (compactSigned_reference_le_iff h1 v),
    compactUnsigned_reference_eq_size u ▸ hshru, compactSigned_reference_eq_size v ▸ hshrs,
    fun s₂ req₂ rest₂ h₂ => ⟨fun herr ha₂ => ?_, fun herr ha₂ => ?_⟩⟩
  · obtain ⟨hresult, -⟩ := hshru herr
    rw [← ha₂] at hresult
    have hlt : u < 2 ^ w :=
      (compactUnsigned_minimal_le_iff h1 u).1 ((compactUnsigned_minimal_le_reference u).trans (hu.1 herr))
    have hpadu := paduResponse_of_lt h1 h64 (hresult.trans_lt hlt)
    rw [hresult] at hpadu
    exact ⟨_, exec_of_request h₂ (.padu .w64 w), hpadu⟩
  · obtain ⟨hresult, -⟩ := hshrs herr
    obtain ⟨hlo, hhi⟩ :=
      (compactSigned_minimal_le_iff h1 v).1 ((compactSigned_minimal_le_reference v).trans (hv.1 herr))
    have hpads : (padsResponse 64 w req₂.a).result = BitVec.ofInt 64 v :=
      padsResponse_of_pattern h1 h64 hlo hhi (by rw [ha₂, hresult])
    have herr₂ : (padsResponse 64 w req₂.a).err = 0 := by
      rw [padsResponse_eq_signExtend h1 h64, Response.ok_err]
    exact ⟨_, exec_of_request h₂ (.pads .w64 w), herr₂,
      (congrArg BitVec.toInt hpads).trans (toInt_ofInt_of_signed_range h1 h64 hlo hhi)⟩

end Sys2Proof.Machine
end

section
/-! PROOFS, 70_reset_and_hazards.md: a pipeline answers every request PIPE_LATENCY cycles later, in order (R101, R106), and a
host takes no size from an error or from the Unknown sentinel (R103). -/

namespace Sys2Proof.Machine

/-! ## The clocked realisation (R106) -/

/-- One cycle answers the oldest of the requests in flight and the one presented, and keeps the others. -/
theorem Pipeline.cycle_of_oldest {p : Pipeline} {input oldest : Option Request} {rest : List (Option Request)}
    (h : p.stages ++ [input] = oldest :: rest) :
    p.cycle input = ({ p with stages := rest }, oldest.map (Request.response p.config)) := by
  simp only [Pipeline.cycle, h]

/-- A pipeline answers what is in flight and then what is presented, one place a cycle. -/
theorem Pipeline.run_eq_take (cfg : Config) (stages inputs : List (Option Request)) :
    Pipeline.run ⟨cfg, stages⟩ inputs =
      ((stages ++ inputs).map (Option.map (Request.response cfg))).take inputs.length := by
  induction inputs generalizing stages with
  | nil => rfl
  | cons input inputs ih =>
    obtain ⟨oldest, rest, hstages⟩ : ∃ oldest rest, stages ++ [input] = oldest :: rest :=
      List.exists_cons_of_ne_nil (by simp)
    have hall : stages ++ input :: inputs = oldest :: (rest ++ inputs) := by
      rw [List.append_cons, hstages, List.cons_append]
    rw [Pipeline.run, Pipeline.cycle_of_oldest (p := ⟨cfg, stages⟩) hstages, ih, hall]
    rfl

/-- Settles O47: after power-up every place in flight is empty. -/
theorem clockedResponsesComeInOrder : Obligations.ClockedResponsesComeInOrder := by
  intro cfg pipeLatency inputs
  rw [Pipeline.powerUp, Pipeline.run_eq_take, List.map_append, List.map_replicate, Option.map_none]

/-! ## The size a host takes (R103) -/

/-- DECODE of the sentinel with fewer than its eight bytes is an error. -/
theorem eq_eight_of_decodeResponse_sentinel {len : Nat} (h : (decodeResponse len 0x01FFFFFFFFFFFFFF#64).err = 0) :
    len = 8 := by
  obtain ⟨-, hle, hlen, -⟩ := decodeResponse_of_err_eq_zero (n := 8) (by decide) h
  exact Nat.le_antisymm hlen hle

/-- Among the successes of DECODE, UNK tells the sentinel from every other operand (R67). -/
theorem decodeResponse_unk_eq_false_iff {len : Nat} {a : Data} (h : (decodeResponse len a).err = 0) :
    (decodeResponse len a).unk = false ↔ a ≠ 0x01FFFFFFFFFFFFFF#64 := by
  by_cases ha : a = 0x01FFFFFFFFFFFFFF#64
  · subst ha
    rw [eq_eight_of_decodeResponse_sentinel h, decodeResponse_sentinel, Response.ok_unk (by decide) (by decide)]
    simp
  · exact iff_of_true (decodeResponse_plain fun hsent => ha hsent.2).unk_eq_false ha

/-- Settles O48. -/
theorem elementSizeIsNeverTheSentinel : Obligations.ElementSizeIsNeverTheSentinel := by
  intro s req rest len h
  refine ⟨decodeResponse len req.a, exec_of_request h _, ?_⟩
  simp only [Response.elementSize, and_congr_right (decodeResponse_unk_eq_false_iff (len := len) (a := req.a))]

end Sys2Proof.Machine
end
